-- ==== Sys2Proof/Word.lean ====
section
/-! DEFINITION. The word types of the core: bytes, 16-bit words and the field types of an opcode
(spec/00_scope.md R9, spec/30_encoding.md R64). Every value is unsigned; arithmetic on them wraps
at the type's width, as the rules' `mod 256` and `mod 65536` say. -/

namespace Sys2Proof

/-- A byte: a general register, a timer, an element of `MEM` (R9). -/
abbrev Byte := BitVec 8

/-- A 16-bit value: `PC`, `I`, a `STACK` entry, an opcode (R12, R13, R14, R63). -/
abbrev Word := BitVec 16

/-- A 4-bit field of an opcode, and the sprite height `N` (R64). -/
abbrev Nibble := BitVec 4

/-- The number 0..15 of a general register: the fields `X` and `Y` (R10, R64). -/
abbrev Reg := BitVec 4

/-- The 12-bit address field `NNN` (R64). -/
abbrev Addr := BitVec 12

/-- `VF`, the register that receives flags (R11). -/
abbrev vF : Reg := 0xF#4

end Sys2Proof
end

