-- ==== Sys2Proof/Syntax.lean ====
section
/-! DEFINITION. The 34 instructions of spec/30_encoding.md R65, one constructor for each row of
spec/opcode_table.json, in the table's order; and the seven transactions of the core's interface
(spec/00_scope.md R5). Operands are held at the width of their field (R64), so a term of `Instr`
has no operand out of range. -/

namespace Sys2Proof

/-- One instruction with its operands. `x`, `y` are register numbers, `nn` a byte, `nnn` a 12-bit
address, `n` the sprite height (R64). `SHR` and `SHL` carry the field `y` that their encoding has
and their meaning ignores (R129, R131). -/
inductive Instr where
  /-- 00E0 `CLS` (R150). -/
  | cls
  /-- 00EE `RET` (R100). -/
  | ret
  /-- 1NNN `JP NNN` (R101). -/
  | jp (nnn : Addr)
  /-- 2NNN `CALL NNN` (R102). -/
  | call (nnn : Addr)
  /-- 3XNN `SE Vx, NN` (R103). -/
  | seImm (x : Reg) (nn : Byte)
  /-- 4XNN `SNE Vx, NN` (R104). -/
  | sneImm (x : Reg) (nn : Byte)
  /-- 5XY0 `SE Vx, Vy` (R105). -/
  | seReg (x y : Reg)
  /-- 6XNN `LD Vx, NN` (R121). -/
  | ldImm (x : Reg) (nn : Byte)
  /-- 7XNN `ADD Vx, NN` (R122). -/
  | addImm (x : Reg) (nn : Byte)
  /-- 8XY0 `LD Vx, Vy` (R123). -/
  | ldReg (x y : Reg)
  /-- 8XY1 `OR Vx, Vy` (R124). -/
  | orReg (x y : Reg)
  /-- 8XY2 `AND Vx, Vy` (R125). -/
  | andReg (x y : Reg)
  /-- 8XY3 `XOR Vx, Vy` (R126). -/
  | xorReg (x y : Reg)
  /-- 8XY4 `ADD Vx, Vy` (R127). -/
  | addReg (x y : Reg)
  /-- 8XY5 `SUB Vx, Vy` (R128). -/
  | subReg (x y : Reg)
  /-- 8XY6 `SHR Vx` (R129). -/
  | shr (x y : Reg)
  /-- 8XY7 `SUBN Vx, Vy` (R130). -/
  | subnReg (x y : Reg)
  /-- 8XYE `SHL Vx` (R131). -/
  | shl (x y : Reg)
  /-- 9XY0 `SNE Vx, Vy` (R106). -/
  | sneReg (x y : Reg)
  /-- ANNN `LD I, NNN` (R140). -/
  | ldI (nnn : Addr)
  /-- BNNN `JP V0, NNN` (R108). -/
  | jpV0 (nnn : Addr)
  /-- CXNN `RND Vx, NN` (R132). -/
  | rnd (x : Reg) (nn : Byte)
  /-- DXYN `DRW Vx, Vy, N` (R152). -/
  | drw (x y : Reg) (n : Nibble)
  /-- EX9E `SKP Vx` (R160). -/
  | skp (x : Reg)
  /-- EXA1 `SKNP Vx` (R161). -/
  | sknp (x : Reg)
  /-- FX07 `LD Vx, DT` (R164). -/
  | ldVxDt (x : Reg)
  /-- FX0A `LD Vx, K` (R162). -/
  | ldVxK (x : Reg)
  /-- FX15 `LD DT, Vx` (R165). -/
  | ldDtVx (x : Reg)
  /-- FX18 `LD ST, Vx` (R166). -/
  | ldStVx (x : Reg)
  /-- FX1E `ADD I, Vx` (R141). -/
  | addI (x : Reg)
  /-- FX29 `LD F, Vx` (R142). -/
  | ldF (x : Reg)
  /-- FX33 `LD B, Vx` (R143). -/
  | ldB (x : Reg)
  /-- FX55 `LD [I], Vx` (R144). -/
  | ldMemVx (x : Reg)
  /-- FX65 `LD Vx, [I]` (R145). -/
  | ldVxMem (x : Reg)
deriving DecidableEq, Repr

/-- The seven transactions of the core (R5), with their inputs. `set_key`'s index is a natural number
at this interface (R185). -/
inductive Transaction where
  | reset
  | load (bytes : List Byte)
  | step
  | tickTimers
  | setKey (index : Nat) (pressed : Bool)
  | framebuffer
  | consumeRedrawFlag
deriving DecidableEq, Repr

end Sys2Proof
end

