-- ==== Sys2Proof/Decode.lean ====
section
/-! DEFINITION. Decoding and encoding (spec/30_encoding.md R61, R63-R67). The decoder branches on the
top nibble and, where needed, on the low nibble or the low byte (R61); every fixed digit of a
pattern must match (R66, D3). The encoder lays an instruction out in the same formats (R63). -/

namespace Sys2Proof

/-! ## Fields (R64) and formats (R63) -/

/-- `N1 = op[15:12]`, the major opcode. -/
def topNibble (op : Word) : Nibble := op.extractLsb' 12 4
/-- `X = op[11:8]`. -/
def fieldX (op : Word) : Reg := op.extractLsb' 8 4
/-- `Y = op[7:4]`. -/
def fieldY (op : Word) : Reg := op.extractLsb' 4 4
/-- `N = op[3:0]`. -/
def fieldN (op : Word) : Nibble := op.extractLsb' 0 4
/-- `NN = op[7:0]`. -/
def fieldNN (op : Word) : Byte := op.extractLsb' 0 8
/-- `NNN = op[11:0]`. -/
def fieldNNN (op : Word) : Addr := op.extractLsb' 0 12

/-- Format A: major opcode, 12-bit address. -/
def wordA (major : Nibble) (nnn : Addr) : Word := major ++ nnn
/-- Formats I and K: major opcode, register, byte (an immediate in I, the fixed function byte in K). -/
def wordI (major : Nibble) (x : Reg) (nn : Byte) : Word := major ++ x ++ nn
/-- Formats R and D: major opcode, two registers, nibble (the fixed function in R, the height in D). -/
def wordR (major : Nibble) (x y : Reg) (n : Nibble) : Word := major ++ x ++ y ++ n

/-! ## Decoding -/

/-- Why the decoder refuses its input: one name for each row of the table of illegal words (R66), and
one for input shorter than an instruction. -/
inductive Reject where
  /-- `0NNN` other than 00E0 and 00EE (R67). -/
  | illegal0NNN
  /-- `5XYN` with N not 0. -/
  | illegal5XYN
  /-- `8XYN` with N in 8, 9, A, B, C, D, F. -/
  | illegal8XYN
  /-- `9XYN` with N not 0. -/
  | illegal9XYN
  /-- `EXNN` with NN neither 9E nor A1. -/
  | illegalEXNN
  /-- `FXNN` with NN not in the list of R66. -/
  | illegalFXNN
  /-- Fewer than two bytes: no word to decode. The fetch never gives this (R60, R63). -/
  | truncated
deriving DecidableEq, Repr

/-- Words 0NNN: the two whole-word matches (R65 rows 1 and 2). -/
def decode0 (op : Word) : Except Reject Instr :=
  match op.toNat with
  | 0x00E0 => .ok .cls
  | 0x00EE => .ok .ret
  | _ => .error .illegal0NNN

/-- Words 8XYN, by the function nibble (R65 rows 10 to 18). -/
def decode8 (op : Word) : Except Reject Instr :=
  match (fieldN op).toNat with
  | 0x0 => .ok (.ldReg (fieldX op) (fieldY op))
  | 0x1 => .ok (.orReg (fieldX op) (fieldY op))
  | 0x2 => .ok (.andReg (fieldX op) (fieldY op))
  | 0x3 => .ok (.xorReg (fieldX op) (fieldY op))
  | 0x4 => .ok (.addReg (fieldX op) (fieldY op))
  | 0x5 => .ok (.subReg (fieldX op) (fieldY op))
  | 0x6 => .ok (.shr (fieldX op) (fieldY op))
  | 0x7 => .ok (.subnReg (fieldX op) (fieldY op))
  | 0xE => .ok (.shl (fieldX op) (fieldY op))
  | _ => .error .illegal8XYN

/-- Words EXNN, by the function byte (R65 rows 24 and 25). -/
def decodeE (op : Word) : Except Reject Instr :=
  match (fieldNN op).toNat with
  | 0x9E => .ok (.skp (fieldX op))
  | 0xA1 => .ok (.sknp (fieldX op))
  | _ => .error .illegalEXNN

/-- Words FXNN, by the function byte (R65 rows 26 to 34). -/
def decodeF (op : Word) : Except Reject Instr :=
  match (fieldNN op).toNat with
  | 0x07 => .ok (.ldVxDt (fieldX op))
  | 0x0A => .ok (.ldVxK (fieldX op))
  | 0x15 => .ok (.ldDtVx (fieldX op))
  | 0x18 => .ok (.ldStVx (fieldX op))
  | 0x1E => .ok (.addI (fieldX op))
  | 0x29 => .ok (.ldF (fieldX op))
  | 0x33 => .ok (.ldB (fieldX op))
  | 0x55 => .ok (.ldMemVx (fieldX op))
  | 0x65 => .ok (.ldVxMem (fieldX op))
  | _ => .error .illegalFXNN

/-- `decode` of R61: a total function of the 16 bits of the opcode alone, by the top nibble. -/
def decodeWord (op : Word) : Except Reject Instr :=
  match (topNibble op).toNat with
  | 0x0 => decode0 op
  | 0x1 => .ok (.jp (fieldNNN op))
  | 0x2 => .ok (.call (fieldNNN op))
  | 0x3 => .ok (.seImm (fieldX op) (fieldNN op))
  | 0x4 => .ok (.sneImm (fieldX op) (fieldNN op))
  | 0x5 => if fieldN op = 0 then .ok (.seReg (fieldX op) (fieldY op)) else .error .illegal5XYN
  | 0x6 => .ok (.ldImm (fieldX op) (fieldNN op))
  | 0x7 => .ok (.addImm (fieldX op) (fieldNN op))
  | 0x8 => decode8 op
  | 0x9 => if fieldN op = 0 then .ok (.sneReg (fieldX op) (fieldY op)) else .error .illegal9XYN
  | 0xA => .ok (.ldI (fieldNNN op))
  | 0xB => .ok (.jpV0 (fieldNNN op))
  | 0xC => .ok (.rnd (fieldX op) (fieldNN op))
  | 0xD => .ok (.drw (fieldX op) (fieldY op) (fieldN op))
  | 0xE => decodeE op
  | _ => decodeF op

/-- The opcode two consecutive bytes form: big-endian, the byte at the lower address in bits 15-8
(R44, spec/20_memory.md R42). -/
def wordOfBytes (high low : Byte) : Word := high ++ low

/-- Decode the instruction at the head of a byte sequence, and the bytes after it. -/
def decode : List Byte → Except Reject (Instr × List Byte)
  | high :: low :: rest =>
    match decodeWord (wordOfBytes high low) with
    | .ok i => .ok (i, rest)
    | .error r => .error r
  | _ => .error .truncated

/-! ## Encoding -/

/-- The opcode of an instruction: the patterns of the table of R65, column `pattern`. -/
def encodeWord : Instr → Word
  | .cls => 0x00E0
  | .ret => 0x00EE
  | .jp nnn => wordA 0x1 nnn
  | .call nnn => wordA 0x2 nnn
  | .seImm x nn => wordI 0x3 x nn
  | .sneImm x nn => wordI 0x4 x nn
  | .seReg x y => wordR 0x5 x y 0x0
  | .ldImm x nn => wordI 0x6 x nn
  | .addImm x nn => wordI 0x7 x nn
  | .ldReg x y => wordR 0x8 x y 0x0
  | .orReg x y => wordR 0x8 x y 0x1
  | .andReg x y => wordR 0x8 x y 0x2
  | .xorReg x y => wordR 0x8 x y 0x3
  | .addReg x y => wordR 0x8 x y 0x4
  | .subReg x y => wordR 0x8 x y 0x5
  | .shr x y => wordR 0x8 x y 0x6
  | .subnReg x y => wordR 0x8 x y 0x7
  | .shl x y => wordR 0x8 x y 0xE
  | .sneReg x y => wordR 0x9 x y 0x0
  | .ldI nnn => wordA 0xA nnn
  | .jpV0 nnn => wordA 0xB nnn
  | .rnd x nn => wordI 0xC x nn
  | .drw x y n => wordR 0xD x y n
  | .skp x => wordI 0xE x 0x9E
  | .sknp x => wordI 0xE x 0xA1
  | .ldVxDt x => wordI 0xF x 0x07
  | .ldVxK x => wordI 0xF x 0x0A
  | .ldDtVx x => wordI 0xF x 0x15
  | .ldStVx x => wordI 0xF x 0x18
  | .addI x => wordI 0xF x 0x1E
  | .ldF x => wordI 0xF x 0x29
  | .ldB x => wordI 0xF x 0x33
  | .ldMemVx x => wordI 0xF x 0x55
  | .ldVxMem x => wordI 0xF x 0x65

/-- The two bytes of a word as the hardware stores them, the first at the lower address (R44). -/
def bytesOfWord (op : Word) : List Byte := [op.extractLsb' 8 8, op.extractLsb' 0 8]

/-- The bytes of an instruction in memory. -/
def encode (i : Instr) : List Byte := bytesOfWord (encodeWord i)

/-! ## The opcode table's numbering -/

/-- The word whose bits the opcode table numbers from bit 0: the low `nbits` bits of `w`, zeros above. -/
def tableWord (nbits w : Nat) : Word := BitVec.ofNat 16 (w % 2 ^ nbits)

/-- The instruction the decoder reads from the table's word `w` of `nbits` bits, laid out in memory
order; none where the decoder refuses it. An instruction has 16 bits (R63). -/
def decodeTableWord (nbits w : Nat) : Option Instr :=
  if nbits ≤ 16 then
    match decode (bytesOfWord (tableWord nbits w)) with
    | .ok (i, _) => some i
    | .error _ => none
  else none

/-- The digits an instruction's pattern fixes: a word is this instruction exactly when
`op &&& mask = value` (R65). -/
structure FixedDigits where
  mask : Word
  value : Word
deriving DecidableEq, Repr

/-- The mask and match columns of the table of R65, row by row. -/
def fixedDigits : Instr → FixedDigits
  | .cls => ⟨0xFFFF, 0x00E0⟩
  | .ret => ⟨0xFFFF, 0x00EE⟩
  | .jp _ => ⟨0xF000, 0x1000⟩
  | .call _ => ⟨0xF000, 0x2000⟩
  | .seImm _ _ => ⟨0xF000, 0x3000⟩
  | .sneImm _ _ => ⟨0xF000, 0x4000⟩
  | .seReg _ _ => ⟨0xF00F, 0x5000⟩
  | .ldImm _ _ => ⟨0xF000, 0x6000⟩
  | .addImm _ _ => ⟨0xF000, 0x7000⟩
  | .ldReg _ _ => ⟨0xF00F, 0x8000⟩
  | .orReg _ _ => ⟨0xF00F, 0x8001⟩
  | .andReg _ _ => ⟨0xF00F, 0x8002⟩
  | .xorReg _ _ => ⟨0xF00F, 0x8003⟩
  | .addReg _ _ => ⟨0xF00F, 0x8004⟩
  | .subReg _ _ => ⟨0xF00F, 0x8005⟩
  | .shr _ _ => ⟨0xF00F, 0x8006⟩
  | .subnReg _ _ => ⟨0xF00F, 0x8007⟩
  | .shl _ _ => ⟨0xF00F, 0x800E⟩
  | .sneReg _ _ => ⟨0xF00F, 0x9000⟩
  | .ldI _ => ⟨0xF000, 0xA000⟩
  | .jpV0 _ => ⟨0xF000, 0xB000⟩
  | .rnd _ _ => ⟨0xF000, 0xC000⟩
  | .drw _ _ _ => ⟨0xF000, 0xD000⟩
  | .skp _ => ⟨0xF0FF, 0xE09E⟩
  | .sknp _ => ⟨0xF0FF, 0xE0A1⟩
  | .ldVxDt _ => ⟨0xF0FF, 0xF007⟩
  | .ldVxK _ => ⟨0xF0FF, 0xF00A⟩
  | .ldDtVx _ => ⟨0xF0FF, 0xF015⟩
  | .ldStVx _ => ⟨0xF0FF, 0xF018⟩
  | .addI _ => ⟨0xF0FF, 0xF01E⟩
  | .ldF _ => ⟨0xF0FF, 0xF029⟩
  | .ldB _ => ⟨0xF0FF, 0xF033⟩
  | .ldMemVx _ => ⟨0xF0FF, 0xF055⟩
  | .ldVxMem _ => ⟨0xF0FF, 0xF065⟩

end Sys2Proof
end

