-- ==== Sys2Proof/Config.lean ====
section
/-! DEFINITION. What the spec leaves open: the sprite engine's edge policy, fixed for the life of a
core (spec/00_scope.md R4, spec/92_eei_decisions.md D8), and the random byte of each `RND`
(spec/41_alu.md R132). Both are constants without a body, so that nothing can be proved from a
value of theirs. -/

namespace Sys2Proof

/-- The two values of the parameter `EDGE_POLICY` (R4, R151). -/
inductive EdgePolicy where
  /-- A pixel past the right or bottom edge is drawn at the opposite edge. -/
  | wrap
  /-- A pixel past the right or bottom edge is not drawn and cannot collide. -/
  | clip
deriving DecidableEq, Repr, Inhabited

/-- `EDGE_POLICY`, one fixed value for the life of a core (R151). The spec leaves it OPEN (D8): every
claim about the machine holds for both values. Log entry 1. -/
opaque Config.edgePolicy : EdgePolicy

/-- The byte that the n-th `RND` draws: a free value (R132, D18). The n is `State.draws`, so that no
two executions of `RND` need draw the same byte. Log entry 2. -/
opaque Config.randomByte : Nat → Byte

end Sys2Proof
end

