-- ==== Sys2Proof/Machine/State.lean ====
section
/-! DEFINITION. The state of the core as plain data: the tuple of spec/10_state.md, and the reasons a
transaction can stop (spec/60_exceptions.md R170). -/

namespace Sys2Proof.Machine

/-- The five errors of the core (R170). An error is the result of its transaction, which changes no
state (R171); it is modelled as a fault of the step, never left by `step` (R172). Safe: the model
stops exactly where the core reports the error. -/
inductive Fault where
  /-- Raised by `step`: WAIT is none and the word at PC is illegal (R173). Safe. -/
  | decodeError (opcode pc : Word)
  /-- Raised by `step` executing `CALL` with SP = 16 (R174). Safe. -/
  | stackOverflow (pc : Word)
  /-- Raised by `step` executing `RET` with SP = 0 (R175). Safe. -/
  | stackUnderflow (pc : Word)
  /-- Raised by the transaction `load` for more than 3584 bytes (R204); never by `step`. Safe. -/
  | loadTooLarge (length : Nat)
  /-- Raised by the transaction `set_key` for an index above 15 (R185); never by `step`. Safe. -/
  | invalidKeyIndex (index : Nat)
deriving DecidableEq, Repr

/-- What the model gives no meaning to. -/
inductive Refusal where
  /-- An instruction whose arm of `exec` has no meaning yet; raised by no arm of this model. Safe. -/
  | notModelled (mnemonic : String)
deriving DecidableEq, Repr

/-- `MEM`, as the cells whose byte differs from its reset contents: addresses strictly rising and
below 4096 (the canonical form `Memory.wf`). An address not listed reads as `resetByte`. -/
abbrev Memory := List Host.Cell

/-- `FB`: 32 rows of 64 one-bit cells; bit x of row y is the cell (x, y) (R18). Log entry 9. -/
abbrev Framebuffer := Vector (BitVec 64) 32

/-- The state of the core (spec/10_state.md): everything that persists between transactions. -/
structure State where
  /-- `MEM`, 4096 bytes (R22). -/
  mem : Memory
  /-- `V[0..15]`; `V[15]` is VF (R10, R11). -/
  v : Vector Byte 16
  /-- The index register, 16 bits stored unmasked (R13). -/
  i : Word
  /-- The program counter, 16 bits stored unmasked (R12). -/
  pc : Word
  /-- `STACK[0..15]`, return addresses (R14). -/
  stack : Vector Word 16
  /-- `SP`, the number of valid stack entries, 0..16 (R14, R26). -/
  sp : Fin 17
  /-- `DT`, the delay timer (R15). -/
  dt : Byte
  /-- `ST`, the sound timer (R16). -/
  st : Byte
  /-- `KEY`, key k at bit k, 1 = held down (R17, R9). -/
  key : BitVec 16
  /-- `FB` (R18). -/
  fb : Framebuffer
  /-- `REDRAW` (R19). -/
  redraw : Bool
  /-- `WAIT`: the register a pending `LD Vx, K` fills, or none (R20). -/
  wait : Option Reg
  /-- `WAIT_KEYS`: the keys held down since the wait began (R21). -/
  waitKeys : BitVec 16
  /-- The model's own: how many random bytes have been drawn (log entry 2). -/
  draws : Nat
deriving DecidableEq, Repr

/-- The state after `reset()` (R24, R200). Memory lists nothing: every byte holds its reset contents.
Every value is the spec's but `draws`, which is the model's own (log entry 2). -/
def State.reset : State where
  mem := []
  v := Vector.replicate 16 0
  i := 0
  pc := 0x0200
  stack := Vector.replicate 16 0
  sp := 0
  dt := 0
  st := 0
  key := 0
  fb := Vector.replicate 32 0
  redraw := false
  wait := none
  waitKeys := 0
  draws := 0

end Sys2Proof.Machine
end

