-- ==== Sys2Proof/Machine/Ops.lean ====
section
/-! DEFINITION. The named operations over memory and registers that every instruction is built from:
the access primitives (spec/20_memory.md R40-R43), the reset contents of memory (R47, R50), reading
and writing each register, the next PC (spec/40_flow.md R107), the return-address stack
(spec/10_state.md R14) and raising an error (spec/60_exceptions.md R171). -/

namespace Sys2Proof.Machine

/-! ## Reset contents of memory -/

/-- `FONT_BASE` (spec/00_scope.md R4, D16). -/
def fontBase : Nat := 0x000

/-- The size of one glyph: 80 bytes for 16 glyphs (R4, R50). -/
def glyphBytes : Nat := 5

/-- The glyphs of the digits 0 to 7 (R50; log entry 3). -/
def fontLow : List Byte :=
  [0xF0, 0x90, 0x90, 0x90, 0xF0] ++ [0x20, 0x60, 0x20, 0x20, 0x70] ++
  [0xF0, 0x10, 0xF0, 0x80, 0xF0] ++ [0xF0, 0x10, 0xF0, 0x10, 0xF0] ++
  [0x90, 0x90, 0xF0, 0x10, 0x10] ++ [0xF0, 0x80, 0xF0, 0x10, 0xF0] ++
  [0xF0, 0x80, 0xF0, 0x90, 0xF0] ++ [0xF0, 0x10, 0x20, 0x40, 0x40]

/-- The glyphs of the digits 8 to F (R50; log entry 3). -/
def fontHigh : List Byte :=
  [0xF0, 0x90, 0xF0, 0x90, 0xF0] ++ [0xF0, 0x90, 0xF0, 0x10, 0xF0] ++
  [0xF0, 0x90, 0xF0, 0x90, 0x90] ++ [0xE0, 0x90, 0xE0, 0x90, 0xE0] ++
  [0xF0, 0x80, 0x80, 0x80, 0xF0] ++ [0xE0, 0x90, 0x90, 0x90, 0xE0] ++
  [0xF0, 0x80, 0xF0, 0x80, 0xF0] ++ [0xF0, 0x80, 0xF0, 0x80, 0x80]

/-- The 80 font bytes, glyph after glyph (R50). -/
def fontBytes : List Byte := fontLow ++ fontHigh

/-- What `reset()` leaves at an address: the font at `FONT_BASE`, zero elsewhere (R24). It is also
what an address that memory does not list reads as. -/
def resetByte (a : Nat) : Byte :=
  if a < fontBase then 0 else (fontBytes[a - fontBase]?).getD 0

/-! ## Memory -/

/-- The byte listed at an address, if one is. -/
def Memory.lookup : Memory → Nat → Option Byte
  | [], _ => none
  | (b, w) :: rest, a => if a = b then some w else Memory.lookup rest a

/-- The byte at an address: the listed one, else the reset contents. -/
def Memory.read (m : Memory) (a : Nat) : Byte := (Memory.lookup m a).getD (resetByte a)

/-- List a byte at an address, keeping the addresses rising. -/
def Memory.insert (a : Nat) (v : Byte) : Memory → Memory
  | [] => [(a, v)]
  | (b, w) :: rest =>
    if a < b then (a, v) :: (b, w) :: rest
    else if a = b then (a, v) :: rest
    else (b, w) :: Memory.insert a v rest

/-- List nothing at an address. -/
def Memory.erase (a : Nat) (m : Memory) : Memory := m.filter (fun c => c.1 != a)

/-- Set the byte at an address; the reset contents are not listed, so that equal memories are equal
lists. -/
def Memory.write (m : Memory) (a : Nat) (v : Byte) : Memory :=
  if v = resetByte a then Memory.erase a m else Memory.insert a v m

/-- The canonical form: addresses strictly rising and below 4096, no cell equal to its reset contents. -/
abbrev Memory.wf (m : Memory) : Prop :=
  m.Pairwise (fun c d => c.1 < d.1) ∧ ∀ c ∈ m, c.1 < 4096 ∧ c.2 ≠ resetByte c.1

/-- `EA(a) = a & 0xFFF`, for any natural number (R40). -/
def effAddr (a : Nat) : Nat := a % 4096

/-- `MemRead(a, 1)` (R41). -/
def State.memRead (s : State) (a : Nat) : Byte := Memory.read s.mem (effAddr a)

/-- `MemRead(a, 2)`, big-endian, used only by the fetch (R42). -/
def State.memRead2 (s : State) (a : Nat) : Word := wordOfBytes (s.memRead a) (s.memRead (a + 1))

/-- `MemWrite(a, 1, v)` (R43). -/
def State.memWrite (s : State) (a : Nat) (v : Byte) : State :=
  { s with mem := Memory.write s.mem (effAddr a) v }

/-- The opcode at PC (R60). -/
def State.fetch (s : State) : Word := s.memRead2 s.pc.toNat

/-! ## Registers -/

/-- Read `V[x]` (R10). -/
def State.getV (s : State) (x : Reg) : Byte := s.v[x.toNat]'x.isLt

/-- `V[x] <- b` (R10). -/
def State.setV (s : State) (x : Reg) (b : Byte) : State := { s with v := s.v.set x.toNat b x.isLt }

/-- `I <- w` (R13). -/
def State.setI (s : State) (w : Word) : State := { s with i := w }

/-- `pc <- w`, unmasked (R12). -/
def State.setPc (s : State) (w : Word) : State := { s with pc := w }

/-- `DT <- b` (R15). -/
def State.setDt (s : State) (b : Byte) : State := { s with dt := b }

/-- `ST <- b` (R16). -/
def State.setSt (s : State) (b : Byte) : State := { s with st := b }

/-- `KEY <- w` (R17). -/
def State.setKeys (s : State) (w : BitVec 16) : State := { s with key := w }

/-- `FB <- f` (R18). -/
def State.setFb (s : State) (f : Framebuffer) : State := { s with fb := f }

/-- `REDRAW <- b` (R19). -/
def State.setRedraw (s : State) (b : Bool) : State := { s with redraw := b }

/-- `WAIT <- w; WAIT_KEYS <- k` (R20, R21). -/
def State.setWait (s : State) (w : Option Reg) (k : BitVec 16) : State :=
  { s with wait := w, waitKeys := k }

/-! ## The next PC (R107) -/

/-- Sequential flow: `PC <- (PC + 2) mod 65536`. -/
def State.advance (s : State) : State := s.setPc (s.pc + 2)

/-- A skip: `PC <- (PC + 4) mod 65536` if the condition holds, else sequential flow. -/
def State.skipIf (s : State) (c : Bool) : State := if c then s.setPc (s.pc + 4) else s.advance

/-! ## Errors and the stack -/

/-- `raise`: end the transaction with an error; the state it had stays (R171). The core has no trap
entry and no return from one (R178, R179), so this is the whole of taking an exception. -/
def raise (f : Fault) (_ : State) : Host.Outcome State Fault Refusal := .fault f

/-- `CALL`'s push and jump: overflow if SP is 16, else the entry at SP gets the return address, SP
rises and PC is the target (R14, R102). -/
def callTo (target : Word) (s : State) : Host.Outcome State Fault Refusal :=
  if h : s.sp.val < 16 then
    .next { s with stack := s.stack.set s.sp.val (s.pc + 2) h, sp := ⟨s.sp.val + 1, by omega⟩, pc := target }
  else raise (.stackOverflow s.pc) s

/-- `RET`'s pop: underflow if SP is 0, else SP falls and PC is the entry at the new SP, which keeps its
bits (R14, R100). -/
def returnToCaller (s : State) : Host.Outcome State Fault Refusal :=
  if h : s.sp.val = 0 then raise (.stackUnderflow s.pc) s
  else .next { s with sp := ⟨s.sp.val - 1, by omega⟩, pc := s.stack[s.sp.val - 1]'(by omega) }

end Sys2Proof.Machine
end

