-- ==== Sys2Proof/Machine/Flags.lean ====
section
/-! DEFINITION. The flag computations: VF is the only flag, and six instructions write it
(spec/10_state.md R11, spec/41_alu.md R120, R127-R131, spec/43_display.md R152). -/

namespace Sys2Proof.Machine

/-- A flag as a byte: exactly 0x01 or 0x00 (R11). -/
def flagByte (f : Bool) : Byte := if f then 1 else 0

/-- The carry of `a + b`: the sum exceeds 255 (R127). -/
def carryOut (a b : Byte) : Bool := decide (a.toNat + b.toNat > 255)

/-- No borrow in `a - b`: a is at least b (R128, R130). -/
def noBorrow (a b : Byte) : Bool := decide (a.toNat ≥ b.toNat)

/-- The bit a right shift moves out: bit 0 before the shift (R129). -/
def lowBit (a : Byte) : Bool := a.getLsbD 0

/-- The bit a left shift moves out: bit 7 before the shift (R131). -/
def highBit (a : Byte) : Bool := a.getLsbD 7

/-- VF receives a flag (R11). -/
def State.setFlag (s : State) (f : Bool) : State := s.setV vF (flagByte f)

/-- The result to `V[x]`, then the flag to VF, so that with x = F the flag remains (R120 (b)). -/
def State.setResultAndFlag (s : State) (x : Reg) (result : Byte) (f : Bool) : State :=
  (s.setV x result).setFlag f

end Sys2Proof.Machine
end

