-- ==== Sys2Proof/Machine/Operands.lean ====
section
/-! DEFINITION. The operand forms of the instructions: zero-extended immediates (spec/30_encoding.md
R64), the low nibble of a register as a digit or key (D15), index plus offset
(spec/42_index_memory.md), the register range `V[0]..V[X]` (R144, R145), decimal digits (R143) and
the sprite's start position and edge policy (spec/43_display.md R151). -/

namespace Sys2Proof.Machine

/-- `zext_16(NNN)` (R64). -/
def zextAddr (nnn : Addr) : Word := nnn.setWidth 16

/-- `zext_16(b)` of a byte (R108, R141). -/
def zextByte (b : Byte) : Word := b.setWidth 16

/-- `b & 0x0F`: the digit of `LD F`, the key of `SKP` and `SKNP` (R142, R160, D15; log entry 14). -/
def lowNibble (b : Byte) : Nat := (b &&& 0x0F#8).toNat

/-- `KEY[k]` (R17). -/
def State.keyDown (s : State) (k : Nat) : Bool := s.key.getLsbD k

/-- The address `I + k` before the reduction of R40. -/
def State.indexAddr (s : State) (k : Nat) : Nat := s.i.toNat + k

/-- The address of the glyph of a digit: `FONT_BASE + 5 * d` (R142). -/
def glyphAddr (d : Nat) : Word := BitVec.ofNat 16 (fontBase + glyphBytes * d)

/-- The registers `V[0]` to `V[x]`, ascending (R144, R145). -/
def regsUpTo (x : Reg) : List Reg := (List.range (x.toNat + 1)).map (BitVec.ofNat 4)

/-- The hundreds digit of a byte (R143). -/
def hundreds (b : Byte) : Byte := BitVec.ofNat 8 (b.toNat / 100)
/-- The tens digit of a byte (R143). -/
def tens (b : Byte) : Byte := BitVec.ofNat 8 (b.toNat / 10 % 10)
/-- The ones digit of a byte (R143). -/
def ones (b : Byte) : Byte := BitVec.ofNat 8 (b.toNat % 10)

/-- The column the sprite starts at: `V[X] mod 64` under both policies (R151, D9; log entry 12). -/
def startX (b : Byte) : Nat := b.toNat % 64
/-- The row the sprite starts at: `V[Y] mod 32` under both policies (R151, D9; log entry 12). -/
def startY (b : Byte) : Nat := b.toNat % 32

/-- The cell a raw position falls on: itself inside the framebuffer; outside, the opposite edge under
`WRAP` and none under `CLIP` (R151). -/
def cellAt (policy : EdgePolicy) (px py : Nat) : Option (Nat × Nat) :=
  if px < 64 ∧ py < 32 then some (px, py)
  else match policy with
    | .wrap => some (px % 64, py % 32)
    | .clip => none

/-- `FB[x,y]` (R18). -/
def pixel (fb : Framebuffer) (x y : Nat) : Bool :=
  if h : y < 32 then (fb[y]'h).getLsbD x else false

/-- `FB[x,y] <- FB[x,y] ^ 1` (R152). -/
def togglePixel (fb : Framebuffer) (x y : Nat) : Framebuffer :=
  if h : y < 32 then fb.set y (fb[y]'h ^^^ (1#64 <<< x)) h else fb

end Sys2Proof.Machine
end

