-- ==== Sys2Proof/Machine/Alu.lean ====
section
/-! DEFINITION. Register and ALU instructions (spec/41_alu.md). Operands are read before any register
is written, and a flag is written after the result (R120). -/

namespace Sys2Proof.Machine

/-- `LD Vx, NN` (R121). -/
def execLdImm (x : Reg) (nn : Byte) (s : State) : Host.Outcome State Fault Refusal :=
  .next (s.setV x nn).advance

/-- `ADD Vx, NN`: wraps, writes no flag (R122). -/
def execAddImm (x : Reg) (nn : Byte) (s : State) : Host.Outcome State Fault Refusal :=
  .next (s.setV x (s.getV x + nn)).advance

/-- `LD Vx, Vy` (R123). -/
def execLdReg (x y : Reg) (s : State) : Host.Outcome State Fault Refusal :=
  .next (s.setV x (s.getV y)).advance

/-- `OR Vx, Vy`: VF left as it was (R124). -/
def execOrReg (x y : Reg) (s : State) : Host.Outcome State Fault Refusal :=
  .next (s.setV x (s.getV x ||| s.getV y)).advance

/-- `AND Vx, Vy`: VF left as it was (R125). -/
def execAndReg (x y : Reg) (s : State) : Host.Outcome State Fault Refusal :=
  .next (s.setV x (s.getV x &&& s.getV y)).advance

/-- `XOR Vx, Vy`: VF left as it was (R126). -/
def execXorReg (x y : Reg) (s : State) : Host.Outcome State Fault Refusal :=
  .next (s.setV x (s.getV x ^^^ s.getV y)).advance

/-- `ADD Vx, Vy`: VF is the carry out (R127). -/
def execAddReg (x y : Reg) (s : State) : Host.Outcome State Fault Refusal :=
  .next (s.setResultAndFlag x (s.getV x + s.getV y) (carryOut (s.getV x) (s.getV y))).advance

/-- `SUB Vx, Vy`: VF is NOT borrow of `V[X] - V[Y]` (R128). -/
def execSubReg (x y : Reg) (s : State) : Host.Outcome State Fault Refusal :=
  .next (s.setResultAndFlag x (s.getV x - s.getV y) (noBorrow (s.getV x) (s.getV y))).advance

/-- `SHR Vx`: `V[X]` in place, Y ignored; VF is the bit shifted out (R129; log entry 13). -/
def execShr (x _y : Reg) (s : State) : Host.Outcome State Fault Refusal :=
  .next (s.setResultAndFlag x (s.getV x >>> 1) (lowBit (s.getV x))).advance

/-- `SUBN Vx, Vy`: VF is NOT borrow of `V[Y] - V[X]`; the destination is `V[X]` (R130). -/
def execSubnReg (x y : Reg) (s : State) : Host.Outcome State Fault Refusal :=
  .next (s.setResultAndFlag x (s.getV y - s.getV x) (noBorrow (s.getV y) (s.getV x))).advance

/-- `SHL Vx`: `V[X]` in place, Y ignored; VF is the bit shifted out (R131; log entry 13). -/
def execShl (x _y : Reg) (s : State) : Host.Outcome State Fault Refusal :=
  .next (s.setResultAndFlag x (s.getV x <<< 1) (highBit (s.getV x))).advance

/-- `draw_random_byte()`: the next free value, and the state that has drawn it (R132; log entry 2). -/
def drawRandomByte (s : State) : Byte × State := (Config.randomByte s.draws, { s with draws := s.draws + 1 })

/-- `RND Vx, NN` (R132). -/
def execRnd (x : Reg) (nn : Byte) (s : State) : Host.Outcome State Fault Refusal :=
  .next ((drawRandomByte s).2.setV x ((drawRandomByte s).1 &&& nn)).advance

end Sys2Proof.Machine
end

