-- ==== Sys2Proof/Machine/Display.lean ====
section
/-! DEFINITION. Display instructions (spec/43_display.md): CLS and the XOR sprite engine with its
collision detector. The engine takes the edge policy as an argument; the machine gives it the
core's own (R4, R151). -/

namespace Sys2Proof.Machine

/-- The framebuffer with every cell 0 (R150). -/
def blankScreen : Framebuffer := Vector.replicate 32 0

/-- `CLS` (R150). -/
def execCls (s : State) : Host.Outcome State Fault Refusal :=
  .next ((s.setFb blankScreen).setRedraw true).advance

/-- What the sprite engine works on: the framebuffer, and whether a drawn pixel has collided. -/
structure Canvas where
  fb : Framebuffer
  coll : Bool
deriving DecidableEq, Repr

/-- Draw one sprite bit of value 1 at a raw position: it inverts its cell, and collides when the cell
was 1; a position with no cell is not drawn (R152). -/
def drawPixel (policy : EdgePolicy) (px py : Nat) (c : Canvas) : Canvas :=
  match cellAt policy px py with
  | some (x, y) => ⟨togglePixel c.fb x y, c.coll || pixel c.fb x y⟩
  | none => c

/-- Draw one row byte, bit 7 leftmost: a sprite bit of 0 leaves its cell alone (R151, R152). -/
def drawRow (policy : EdgePolicy) (x0 py : Nat) (b : Byte) (c : Canvas) : Canvas :=
  (List.range 8).foldl
    (fun c col => if b.getLsbD (7 - col) then drawPixel policy (x0 + col) py c else c) c

/-- Draw rows 0 to n-1 of a sprite, row r being `row r` (R152). -/
def drawSprite (policy : EdgePolicy) (x0 y0 : Nat) (row : Nat → Byte) (n : Nat) (c : Canvas) : Canvas :=
  (List.range n).foldl (fun c r => drawRow policy x0 (y0 + r) (row r) c) c

/-- Sprite row r: the byte at `I + r` (R151). -/
def State.spriteRow (s : State) (r : Nat) : Byte := s.memRead (s.indexAddr r)

/-- `DRW Vx, Vy, N` under a given edge policy: the coordinates are read before VF is written (R152). -/
def drawAt (policy : EdgePolicy) (x y : Reg) (n : Nibble) (s : State) : State :=
  let c := drawSprite policy (startX (s.getV x)) (startY (s.getV y)) s.spriteRow n.toNat ⟨s.fb, false⟩
  (((s.setFb c.fb).setFlag c.coll).setRedraw true).advance

/-- `DRW Vx, Vy, N` (R152), under the core's own edge policy (log entry 1). -/
def execDrw (x y : Reg) (n : Nibble) (s : State) : Host.Outcome State Fault Refusal :=
  .next (drawAt Config.edgePolicy x y n s)

end Sys2Proof.Machine
end

