-- ==== Sys2Proof/Machine/Flow.lean ====
section
/-! DEFINITION. Control transfer (spec/40_flow.md): RET, JP, CALL, the four skips, JP V0. -/

namespace Sys2Proof.Machine

/-- `RET` (R100). -/
def execRet (s : State) : Host.Outcome State Fault Refusal := returnToCaller s

/-- `JP NNN` (R101). -/
def execJp (nnn : Addr) (s : State) : Host.Outcome State Fault Refusal := .next (s.setPc (zextAddr nnn))

/-- `CALL NNN` (R102). -/
def execCall (nnn : Addr) (s : State) : Host.Outcome State Fault Refusal := callTo (zextAddr nnn) s

/-- `SE Vx, NN` (R103). -/
def execSeImm (x : Reg) (nn : Byte) (s : State) : Host.Outcome State Fault Refusal :=
  .next (s.skipIf (s.getV x == nn))

/-- `SNE Vx, NN` (R104). -/
def execSneImm (x : Reg) (nn : Byte) (s : State) : Host.Outcome State Fault Refusal :=
  .next (s.skipIf (s.getV x != nn))

/-- `SE Vx, Vy` (R105). -/
def execSeReg (x y : Reg) (s : State) : Host.Outcome State Fault Refusal :=
  .next (s.skipIf (s.getV x == s.getV y))

/-- `SNE Vx, Vy` (R106). -/
def execSneReg (x y : Reg) (s : State) : Host.Outcome State Fault Refusal :=
  .next (s.skipIf (s.getV x != s.getV y))

/-- `JP V0, NNN`: the register is always V0 and the sum is stored unmasked (R108). -/
def execJpV0 (nnn : Addr) (s : State) : Host.Outcome State Fault Refusal :=
  .next (s.setPc (zextByte (s.getV 0) + zextAddr nnn))

end Sys2Proof.Machine
end

