-- ==== Sys2Proof/Machine/IndexMemory.lean ====
section
/-! DEFINITION. Index register and memory instructions (spec/42_index_memory.md). `I` is never
changed by a load or a store, and every address is reduced at the access (R40). -/

namespace Sys2Proof.Machine

/-- `LD I, NNN` (R140). -/
def execLdI (nnn : Addr) (s : State) : Host.Outcome State Fault Refusal :=
  .next (s.setI (zextAddr nnn)).advance

/-- `ADD I, Vx`: modulo 65536, not masked, no flag (R141; log entry 16). -/
def execAddI (x : Reg) (s : State) : Host.Outcome State Fault Refusal :=
  .next (s.setI (s.i + zextByte (s.getV x))).advance

/-- `LD F, Vx` (R142). -/
def execLdF (x : Reg) (s : State) : Host.Outcome State Fault Refusal :=
  .next (s.setI (glyphAddr (lowNibble (s.getV x)))).advance

/-- Store the three decimal digits of a byte at `I`, `I+1`, `I+2` (R143). -/
def storeDigits (b : Byte) (s : State) : State :=
  ((s.memWrite (s.indexAddr 0) (hundreds b)).memWrite (s.indexAddr 1) (tens b)).memWrite
    (s.indexAddr 2) (ones b)

/-- `LD B, Vx` (R143). -/
def execLdB (x : Reg) (s : State) : Host.Outcome State Fault Refusal :=
  .next (storeDigits (s.getV x) s).advance

/-- Store each register k of a list at `I + k`, in the list's order (R144). -/
def storeRegs (ks : List Reg) (s : State) : State :=
  ks.foldl (fun t k => t.memWrite (t.indexAddr k.toNat) (t.getV k)) s

/-- Load each register k of a list from `I + k`, in the list's order (R145). -/
def loadRegs (ks : List Reg) (s : State) : State :=
  ks.foldl (fun t k => t.setV k (t.memRead (t.indexAddr k.toNat))) s

/-- `LD [I], Vx` (R144). -/
def execLdMemVx (x : Reg) (s : State) : Host.Outcome State Fault Refusal :=
  .next (storeRegs (regsUpTo x) s).advance

/-- `LD Vx, [I]` (R145). -/
def execLdVxMem (x : Reg) (s : State) : Host.Outcome State Fault Refusal :=
  .next (loadRegs (regsUpTo x) s).advance

end Sys2Proof.Machine
end

