-- ==== Sys2Proof/Machine/KeypadTimers.lean ====
section
/-! DEFINITION. Keypad and timer instructions, and the await logic of a pending `LD Vx, K`
(spec/44_keypad_timers.md). -/

namespace Sys2Proof.Machine

/-- `SKP Vx` (R160). -/
def execSkp (x : Reg) (s : State) : Host.Outcome State Fault Refusal :=
  .next (s.skipIf (s.keyDown (lowNibble (s.getV x))))

/-- `SKNP Vx` (R161). -/
def execSknp (x : Reg) (s : State) : Host.Outcome State Fault Refusal :=
  .next (s.skipIf (!s.keyDown (lowNibble (s.getV x))))

/-- `LD Vx, K`: the step that decodes it only enters the wait; PC stays (R162; log entry 11). -/
def execLdVxK (x : Reg) (s : State) : Host.Outcome State Fault Refusal :=
  .next (s.setWait (some x) s.key)

/-- Keys down now that were not down continuously since the wait began (R163). -/
def State.newKeys (s : State) : BitVec 16 := s.key &&& ~~~s.waitKeys

/-- The least index of a key set in a key vector, if one is (R163). -/
def leastKey (ks : BitVec 16) : Option Nat := (List.range 16).find? (fun k => ks.getLsbD k)

/-- The await logic of a step that finds `WAIT` = some r, in place of fetch and execute (R163). -/
def awaitKey (r : Reg) (s : State) : State :=
  match leastKey s.newKeys with
  | some k => ((s.setV r (BitVec.ofNat 8 k)).setWait none 0).advance
  | none => s.setWait (some r) (s.waitKeys &&& s.key)

/-- `LD Vx, DT` (R164). -/
def execLdVxDt (x : Reg) (s : State) : Host.Outcome State Fault Refusal :=
  .next (s.setV x s.dt).advance

/-- `LD DT, Vx` (R165). -/
def execLdDtVx (x : Reg) (s : State) : Host.Outcome State Fault Refusal :=
  .next (s.setDt (s.getV x)).advance

/-- `LD ST, Vx` (R166). -/
def execLdStVx (x : Reg) (s : State) : Host.Outcome State Fault Refusal :=
  .next (s.setSt (s.getV x)).advance

end Sys2Proof.Machine
end

