-- ==== Sys2Proof/Machine/Step.lean ====
section
/-! DEFINITION. The transaction `step()` (spec/30_encoding.md R60): the await check first, then fetch,
decode and execute; and where a test word stands so that the next step runs it. -/

namespace Sys2Proof.Machine

/-- `step()` (R60, R62; the order of checks is R177). -/
def step (s : State) : Host.Outcome State Fault Refusal :=
  match s.wait with
  | some r => .next (awaitKey r s)
  | none =>
    match decodeWord s.fetch with
    | .ok i => exec i s
    | .error _ => raise (.decodeError s.fetch s.pc) s

/-- The state with the table's word stored where `step` fetches, big-endian at `EA(PC)` and
`EA(PC + 1)`, and no key wait pending, since a waiting core does not fetch (R60; log entry 6). -/
def State.withFetchWord (s : State) (nbits w : Nat) : State :=
  let op := tableWord nbits w
  let t := (s.memWrite s.pc.toNat (op.extractLsb' 8 8)).memWrite (s.pc.toNat + 1) (op.extractLsb' 0 8)
  { t with wait := none }

end Sys2Proof.Machine
end

