-- ==== Sys2Proof/Machine/Transactions.lean ====
section
/-! DEFINITION. The seven transactions of the core's interface (spec/00_scope.md R5): `step()` is
Machine/Step.lean's; the other six are here (spec/60_exceptions.md R180-R188,
spec/70_reset_and_hazards.md R200-R205). Each is atomic, and a run is any sequence of them (R6). -/

namespace Sys2Proof.Machine

/-- `reset()`: every element of the state to its reset value, whatever it was (R200). The draw counter,
which is no element of the core's state, goes on, so that the free bytes drawn after a reset are
not those drawn before it (log entry 2). -/
def resetCore (s : State) : State := { State.reset with draws := s.draws }

/-- Bytes to consecutive addresses from `a` (R203). -/
def storeBytes : List Byte → Nat → State → State
  | [], _, s => s
  | b :: rest, a, s => storeBytes rest (a + 1) (s.memWrite a b)

/-- `LOAD_ADDR` (R4). -/
def loadAddr : Nat := 0x200

/-- `MAX_PROGRAM` (R4). -/
def maxProgram : Nat := 3584

/-- `load(bytes)`: memory from 0x200 and PC, nothing else; too long a program is rejected whole
(R203, R204, R205). -/
def load (bytes : List Byte) (s : State) : Host.Outcome State Fault Refusal :=
  if bytes.length ≤ maxProgram then .next ((storeBytes bytes loadAddr s).setPc 0x0200)
  else raise (.loadTooLarge bytes.length) s

/-- A timer after one tick: one less, saturating at 0 (R180, R181). -/
def countDown (t : Byte) : Byte := if t.toNat > 0 then t - 1 else t

/-- The output `beep` of a tick: the sound timer was exactly 1 before it (R182). -/
def beep (s : State) : Bool := s.st == 1

/-- `tick_timers()` on the state; its output is `beep` of the state before (R180-R183). -/
def tickTimers (s : State) : State := (s.setDt (countDown s.dt)).setSt (countDown s.st)

/-- The key vector with one key set to a level. -/
def setKeyBit (keys : BitVec 16) (k : Nat) (pressed : Bool) : BitVec 16 :=
  if pressed then keys ||| (1#16 <<< k) else keys &&& ~~~(1#16 <<< k)

/-- `set_key(index, pressed)` (R184, R185, R186). -/
def setKey (index : Nat) (pressed : Bool) (s : State) : Host.Outcome State Fault Refusal :=
  if index < 16 then .next (s.setKeys (setKeyBit s.key index pressed))
  else raise (.invalidKeyIndex index) s

/-- `framebuffer()`: the 2048 cells, element `y*64 + x` the cell (x, y) (R187, R18, D10). -/
def framebufferView (s : State) : List Bool :=
  (List.range 2048).map (fun n => pixel s.fb (n % 64) (n / 64))

/-- `consume_redraw_flag()` on the state; its output is `REDRAW` of the state before (R188). -/
def consumeRedrawFlag (s : State) : State := s.setRedraw false

/-- The error code of the table of R170. -/
def Fault.code : Fault → Nat
  | .loadTooLarge _ => 1
  | .decodeError _ _ => 2
  | .stackOverflow _ => 3
  | .stackUnderflow _ => 4
  | .invalidKeyIndex _ => 5

/-- What a transaction answers its caller (R5): `OK`, an error, or its output. -/
inductive Response where
  /-- No output: `reset()`. -/
  | done
  /-- `OK` (code 0). -/
  | ok
  /-- An error; the state did not change (R171). -/
  | error (f : Fault)
  /-- The output of a tick. -/
  | beep (b : Bool)
  /-- The output of `framebuffer()`. -/
  | grid (cells : List Bool)
  /-- The output of `consume_redraw_flag()`. -/
  | redraw (b : Bool)
  /-- The model gives the step no meaning; answered by no transaction of this model. -/
  | refused (r : Refusal)
deriving DecidableEq, Repr

/-- The code of a result: 0 for `OK`, the error's own for an error; an output has none (R170). -/
def Response.code : Response → Option Nat
  | .ok => some 0
  | .error f => some f.code
  | .done | .beep _ | .grid _ | .redraw _ | .refused _ => none

/-- A transaction whose result is `OK` or an error: an error leaves the state it found (R171). -/
def settle (s : State) : Host.Outcome State Fault Refusal → State × Response
  | .next t => (t, .ok)
  | .fault f => (s, .error f)
  | .refused r => (s, .refused r)

/-- Perform one transaction: the state after it and what it answers (R5). -/
def transact (tx : Transaction) (s : State) : State × Response :=
  match tx with
  | .reset => (resetCore s, .done)
  | .load bytes => settle s (load bytes s)
  | .step => settle s (step s)
  | .tickTimers => (tickTimers s, .beep (beep s))
  | .setKey index pressed => settle s (setKey index pressed s)
  | .framebuffer => (s, .grid (framebufferView s))
  | .consumeRedrawFlag => (consumeRedrawFlag s, .redraw s.redraw)

/-- Perform transactions one after another: any interleaving of the agents is such a list (R6). -/
def runAll : List Transaction → State → State
  | [], s => s
  | tx :: rest, s => runAll rest (transact tx s).1

end Sys2Proof.Machine
end

