-- ==== Sys2Proof/Safety.lean ====
section
/-! DEFINITION. The terms claims are stated in: the machine's invariant (spec/10_state.md R26, R21), the
reachable states (spec/00_scope.md R6), the three resting conditions (spec/70_reset_and_hazards.md
R220), agreement up to the invisible bits of PC, I and STACK (spec/10_state.md R27), which registers
an instruction may write (R11), and the cells a sprite covers (spec/43_display.md R151). -/

namespace Sys2Proof.Machine

/-- The invariant of the machine. The bounds of R26 on SP, V, DT, ST, I, PC, FB and WAIT are the types
of the fields; what is left to keep is the canonical form of memory, the model's own choice (log
entry 8), and that WAIT_KEYS is zero while no wait is pending (R21, R163). -/
structure State.Inv (s : State) : Prop where
  mem_wf : Memory.wf s.mem
  waitKeys_idle : s.wait = none → s.waitKeys = 0

/-- The states some sequence of whole transactions leads to from the state after reset (R6, R210). -/
inductive Reachable : State → Prop where
  | reset : Reachable State.reset
  | transact (tx : Transaction) {s : State} : Reachable s → Reachable (transact tx s).1

/-- Resting condition (a): no wait is pending and the word at PC is a jump to itself (R220). -/
def State.idleLoop (s : State) : Prop :=
  s.wait = none ∧ ∃ nnn, decodeWord s.fetch = .ok (.jp nnn) ∧ effAddr (zextAddr nnn).toNat = effAddr s.pc.toNat

/-- Resting condition (b): no wait is pending and `step` would raise an error (R220). -/
def State.faulted (s : State) : Prop := s.wait = none ∧ ∃ f, step s = .fault f

/-- Resting condition (c): a key wait is pending (R220, R191). -/
def State.waiting (s : State) : Prop := s.wait ≠ none

/-- Two 16-bit values that differ at most in bits 15-12 (R27). -/
def sameLow12 (a b : Word) : Prop := a.toNat % 4096 = b.toNat % 4096

/-- Two errors that differ at most in bits 15-12 of the PC they report (R27). -/
def Fault.sameButHighPc : Fault → Fault → Prop
  | .decodeError op p, .decodeError op' p' => op = op' ∧ sameLow12 p p'
  | .stackOverflow p, .stackOverflow p' => sameLow12 p p'
  | .stackUnderflow p, .stackUnderflow p' => sameLow12 p p'
  | f, g => f = g

/-- Two states that differ at most in bits 15-12 of PC, of I and of the STACK entries (R27). The model's
own draw counter is among what must agree, so RND draws the same byte in both (log entry 2). -/
structure SameUpToHighBits (s t : State) : Prop where
  mem : s.mem = t.mem
  v : s.v = t.v
  i : sameLow12 s.i t.i
  pc : sameLow12 s.pc t.pc
  stack : ∀ k (h : k < 16), sameLow12 s.stack[k] t.stack[k]
  sp : s.sp = t.sp
  dt : s.dt = t.dt
  st : s.st = t.st
  key : s.key = t.key
  fb : s.fb = t.fb
  redraw : s.redraw = t.redraw
  wait : s.wait = t.wait
  waitKeys : s.waitKeys = t.waitKeys
  draws : s.draws = t.draws

/-- The PC n bytes on, modulo 65536 (spec/40_flow.md R107 (a)). -/
def State.pcPlus (s : State) (n : Nat) : Word := BitVec.ofNat 16 ((s.pc.toNat + n) % 65536)

/-- The registers an instruction may write: its destination, and VF for the six instructions of the
table of spec/10_state.md R11. -/
def Instr.mayWrite : Instr → Reg → Prop
  | .ldImm x _, k | .addImm x _, k | .ldReg x _, k | .orReg x _, k | .andReg x _, k | .xorReg x _, k
  | .rnd x _, k | .ldVxDt x, k => k = x
  | .addReg x _, k | .subReg x _, k | .shr x _, k | .subnReg x _, k | .shl x _, k => k = x ∨ k = vF
  | .drw _ _ _, k => k = vF
  | .ldVxMem x, k => k.toNat ≤ x.toNat
  | .cls, _ | .ret, _ | .jp _, _ | .call _, _ | .seImm _ _, _ | .sneImm _ _, _ | .seReg _ _, _
  | .sneReg _ _, _ | .ldI _, _ | .jpV0 _, _ | .skp _, _ | .sknp _, _ | .ldVxK _, _ | .ldDtVx _, _
  | .ldStVx _, _ | .addI _, _ | .ldF _, _ | .ldB _, _ | .ldMemVx _, _ => False

/-- The six instructions that write VF as a flag (R11). -/
def Instr.setsFlag : Instr → Bool
  | .addReg _ _ | .subReg _ _ | .shr _ _ | .subnReg _ _ | .shl _ _ | .drw _ _ _ => true
  | .cls | .ret | .jp _ | .call _ | .seImm _ _ | .sneImm _ _ | .seReg _ _ | .ldImm _ _ | .addImm _ _
  | .ldReg _ _ | .orReg _ _ | .andReg _ _ | .xorReg _ _ | .sneReg _ _ | .ldI _ | .jpV0 _ | .rnd _ _
  | .skp _ | .sknp _ | .ldVxDt _ | .ldVxK _ | .ldDtVx _ | .ldStVx _ | .addI _ | .ldF _ | .ldB _
  | .ldMemVx _ | .ldVxMem _ => false

/-- The cell (x, y) is one the sprite inverts: some sprite bit of value 1, at column c of row r, falls
on it, at the wrapped position under `WRAP`, at the raw position under `CLIP` (R151, R152). -/
def spriteCovers (policy : EdgePolicy) (x0 y0 : Nat) (row : Nat → Byte) (n x y : Nat) : Prop :=
  ∃ r < n, ∃ c < 8, (row r).getLsbD (7 - c) = true ∧
    match policy with
    | .wrap => (x0 + c) % 64 = x ∧ (y0 + r) % 32 = y
    | .clip => x0 + c = x ∧ y0 + r = y

/-- Key k is newly pressed: down now, and not down continuously since the wait began (R21, R163). -/
def State.newlyPressed (s : State) (k : Nat) : Prop :=
  s.key.getLsbD k = true ∧ s.waitKeys.getLsbD k = false

end Sys2Proof.Machine
end

