-- ==== Sys2Proof/Certificates/Slice0/Obligations.lean ====
section
/-! DEFINITION. The statements for the provers. Each formalises the rule its docstring names. A next
state written as a whole record is also the frame: every field not named is as it was. -/

open Sys2Proof Sys2Proof.Machine

/-! ## Reset and load -/

/-- R24 (with the font of R50): every element after reset; the spec marks the rows of WAIT and WAIT_KEYS
(`none`, 0x0000) as its own derivation. `draws` is the model's own, so not named. -/
def Obligations.ResetValuesOfEveryElement : Prop :=
  (List.range 80).map State.reset.memRead =
      [0xF0, 0x90, 0x90, 0x90, 0xF0, 0x20, 0x60, 0x20, 0x20, 0x70, 0xF0, 0x10, 0xF0, 0x80, 0xF0,
        0xF0, 0x10, 0xF0, 0x10, 0xF0, 0x90, 0x90, 0xF0, 0x10, 0x10, 0xF0, 0x80, 0xF0, 0x10, 0xF0] ++
      [0xF0, 0x80, 0xF0, 0x90, 0xF0, 0xF0, 0x10, 0x20, 0x40, 0x40, 0xF0, 0x90, 0xF0, 0x90, 0xF0,
        0xF0, 0x90, 0xF0, 0x10, 0xF0, 0xF0, 0x90, 0xF0, 0x90, 0x90, 0xE0, 0x90, 0xE0, 0x90, 0xE0] ++
      [0xF0, 0x80, 0x80, 0x80, 0xF0, 0xE0, 0x90, 0x90, 0x90, 0xE0, 0xF0, 0x80, 0xF0, 0x80, 0xF0,
        0xF0, 0x80, 0xF0, 0x80, 0x80] ∧
    (∀ a, 80 ≤ a → a < 4096 → State.reset.memRead a = 0x00) ∧
    (∀ x, State.reset.getV x = 0x00) ∧ State.reset.i = 0x0000 ∧ State.reset.pc = 0x0200 ∧
    State.reset.sp.val = 0 ∧ (∀ k (h : k < 16), State.reset.stack[k] = 0x0000) ∧
    State.reset.dt = 0x00 ∧ State.reset.st = 0x00 ∧
    (∀ k, k < 16 → State.reset.key.getLsbD k = false) ∧
    (∀ x y, x < 64 → y < 32 → pixel State.reset.fb x y = false) ∧
    State.reset.redraw = false ∧ State.reset.wait = none ∧ State.reset.waitKeys = 0x0000

/-- R200: from any state, every element of the core gets its reset value; and two resets in a row are one
(R201). The draw counter, the model's own (log entry 2), is kept. -/
def Obligations.ResetTransactionFromAnyState : Prop :=
  ∀ s : State,
    transact .reset s = ({ State.reset with draws := s.draws }, .done) ∧
    transact .reset (transact .reset s).1 = transact .reset s

/-- R203, R205: a program that fits is copied to 0x200, PC becomes 0x0200, and nothing else changes. -/
def Obligations.LoadWritesProgramAndPcOnly : Prop :=
  ∀ (bytes : List Byte) (s : State), bytes.length ≤ 3584 →
    ∃ t, transact (.load bytes) s = (t, .ok) ∧
      (∀ k (h : k < bytes.length), t.memRead (0x200 + k) = bytes[k]) ∧
      (∀ a, a < 4096 → a < 0x200 ∨ 0x200 + bytes.length ≤ a → t.memRead a = s.memRead a) ∧
      t = { s with mem := t.mem, pc := 0x0200 }

/-- R204: a longer program is rejected with its length, and no state changes. -/
def Obligations.LoadRejectsTooLargeProgram : Prop :=
  ∀ (bytes : List Byte) (s : State), bytes.length > 3584 →
    transact (.load bytes) s = (s, .error (.loadTooLarge bytes.length))

/-- R212 (the spec marks it as its own derivation): a pending key wait survives a load; the step that then finds a new key fills the register and
sets PC to 0x0202, so the program's first instruction is not executed. -/
def Obligations.LoadDuringKeyWaitSkipsFirstInstruction : Prop :=
  ∀ (bytes : List Byte) (s : State) (r : Reg), bytes.length ≤ 3584 → s.wait = some r →
    ∃ t, transact (.load bytes) s = (t, .ok) ∧ t.wait = some r ∧ t.pc = 0x0200 ∧
      ∀ k, k < 16 → s.newlyPressed k → (∀ j, j < k → ¬ s.newlyPressed j) →
        ∃ u, step t = .next u ∧ u = { t.setV r (BitVec.ofNat 8 k) with wait := none, waitKeys := 0, pc := 0x0202 }

/-! ## Memory and the step cycle -/

/-- R41, R43: one byte is read and written at the address modulo 4096; a write is seen at its address and
nowhere else, and changes nothing else. -/
def Obligations.ByteAccessesReduceTheAddress : Prop :=
  ∀ (s : State) (a b : Nat) (v : Byte),
    s.memRead a = Memory.read s.mem (a % 4096) ∧
    (s.memWrite a v).memRead a = v ∧
    (b % 4096 ≠ a % 4096 → (s.memWrite a v).memRead b = s.memRead b) ∧
    s.memWrite a v = { s with mem := (s.memWrite a v).mem }

/-- R42, with R40: two bytes at effective addresses, big-endian; at 0xFFF the second is `MEM[0x000]`. -/
def Obligations.FetchReadsTwoBytesBigEndian : Prop :=
  ∀ (s : State) (a : Nat),
    (s.memRead2 a).toNat = 256 * (Memory.read s.mem (a % 4096)).toNat + (Memory.read s.mem ((a + 1) % 4096)).toNat ∧
    (a = 0xFFF → (s.memRead2 a).toNat = 256 * (Memory.read s.mem 0xFFF).toNat + (Memory.read s.mem 0x000).toNat)

/-- The model's memory form: two canonical memories that read alike at every address are one list. -/
def Obligations.CanonicalMemoriesThatReadAlikeAreEqual : Prop :=
  ∀ m m' : Memory, Memory.wf m → Memory.wf m' →
    (∀ a, a < 4096 → Memory.read m a = Memory.read m' a) → m = m'

/-- R60: await first; else fetch the two bytes at PC, decode them, and execute or raise `DecodeError`
with the opcode and PC; whatever error the step raises, the state stays. -/
def Obligations.StepRunsTheDecodedInstruction : Prop :=
  (∀ (s : State) (r : Reg), s.wait = some r → step s = .next (awaitKey r s)) ∧
  (∀ (s : State) (i : Instr), s.wait = none →
    decode [s.memRead s.pc.toNat, s.memRead (s.pc.toNat + 1)] = .ok (i, []) → step s = exec i s) ∧
  (∀ (s : State) (e : Reject), s.wait = none →
    decode [s.memRead s.pc.toNat, s.memRead (s.pc.toNat + 1)] = .error e →
    step s = .fault (.decodeError (s.memRead2 s.pc.toNat) s.pc)) ∧
  (∀ (s : State) (f : Fault), step s = .fault f → transact .step s = (s, .error f))

/-- The word a test places is the one the next step runs, and placing it changes only its two bytes and
ends a pending wait (the model's convention, log entry 6). -/
def Obligations.PlacedWordIsTheOneTheStepRuns : Prop :=
  ∀ (s : State) (w : Nat) (i : Instr), decodeTableWord 16 w = some i →
    step (s.withFetchWord 16 w) = exec i (s.withFetchWord 16 w) ∧
    (∀ a, a < 4096 → a ≠ s.pc.toNat % 4096 → a ≠ (s.pc.toNat + 1) % 4096 →
      (s.withFetchWord 16 w).memRead a = s.memRead a) ∧
    s.withFetchWord 16 w = { s with mem := (s.withFetchWord 16 w).mem, wait := none }

/-! ## Encoding -/

/-- Decoding the bytes of any instruction, with any bytes after them, gives back the instruction, every
operand at every value, and those bytes. -/
def Obligations.DecodeOfEncodeIsTheInstruction : Prop :=
  ∀ (i : Instr) (rest : List Byte), decode (encode i ++ rest) = .ok (i, rest)

/-- Each legal word has one meaning: encoding what it decodes to gives the word back. -/
def Obligations.EncodeOfDecodeIsTheWord : Prop :=
  ∀ (w : Word) (i : Instr), decodeWord w = .ok i → encodeWord i = w

/-- R65: the decoder accepts exactly the words that match a row of the table, here written out as (mask,
match) pairs; no word matches two rows; and a decoded instruction's row is the one its word matches. -/
def Obligations.DecoderAcceptsExactlyTheOpcodeTable : Prop :=
  let table : List (Word × Word) :=
    [(0xFFFF, 0x00E0), (0xFFFF, 0x00EE), (0xF000, 0x1000), (0xF000, 0x2000), (0xF000, 0x3000),
      (0xF000, 0x4000), (0xF00F, 0x5000), (0xF000, 0x6000), (0xF000, 0x7000), (0xF00F, 0x8000),
      (0xF00F, 0x8001), (0xF00F, 0x8002), (0xF00F, 0x8003), (0xF00F, 0x8004), (0xF00F, 0x8005),
      (0xF00F, 0x8006), (0xF00F, 0x8007)] ++
    [(0xF00F, 0x800E), (0xF00F, 0x9000), (0xF000, 0xA000), (0xF000, 0xB000), (0xF000, 0xC000),
      (0xF000, 0xD000), (0xF0FF, 0xE09E), (0xF0FF, 0xE0A1), (0xF0FF, 0xF007), (0xF0FF, 0xF00A),
      (0xF0FF, 0xF015), (0xF0FF, 0xF018), (0xF0FF, 0xF01E), (0xF0FF, 0xF029), (0xF0FF, 0xF033),
      (0xF0FF, 0xF055), (0xF0FF, 0xF065)]
  (∀ w : Word, (∃ i, decodeWord w = .ok i) ↔ ∃ row ∈ table, w &&& row.1 = row.2) ∧
  table.Pairwise (fun p q => ∀ w : Word, ¬ (w &&& p.1 = p.2 ∧ w &&& q.1 = q.2)) ∧
  ∀ (w : Word) (i : Instr), decodeWord w = .ok i →
    ((fixedDigits i).mask, (fixedDigits i).value) ∈ table ∧ w &&& (fixedDigits i).mask = (fixedDigits i).value

/-- One word of every row, from the spec's own vectors, decodes to the instruction it stands for. -/
def Obligations.SpecWordsDecodeToTheirInstructions : Prop :=
  [0x00E0, 0x00EE, 0x1ABC, 0x2300, 0x332A, 0x432A, 0x5120, 0x6A2F, 0x7102, 0x8120, 0x8121, 0x8122].map decodeWord =
    [.ok .cls, .ok .ret, .ok (.jp 0xABC), .ok (.call 0x300), .ok (.seImm 3 0x2A), .ok (.sneImm 3 0x2A),
      .ok (.seReg 1 2), .ok (.ldImm 0xA 0x2F), .ok (.addImm 1 2), .ok (.ldReg 1 2), .ok (.orReg 1 2),
      .ok (.andReg 1 2)] ∧
  [0x8123, 0x8F24, 0x8125, 0x8126, 0x8127, 0x812E, 0x9120, 0xA2F0, 0xB300, 0xC30F, 0xD12A].map decodeWord =
    [.ok (.xorReg 1 2), .ok (.addReg 0xF 2), .ok (.subReg 1 2), .ok (.shr 1 2), .ok (.subnReg 1 2),
      .ok (.shl 1 2), .ok (.sneReg 1 2), .ok (.ldI 0x2F0), .ok (.jpV0 0x300), .ok (.rnd 3 0x0F),
      .ok (.drw 1 2 0xA)] ∧
  [0xE09E, 0xE0A1, 0xF207, 0xF30A, 0xF015, 0xF118, 0xF21E, 0xF429, 0xF033, 0xF155, 0xF265].map decodeWord =
    [.ok (.skp 0), .ok (.sknp 0), .ok (.ldVxDt 2), .ok (.ldVxK 3), .ok (.ldDtVx 0), .ok (.ldStVx 1),
      .ok (.addI 2), .ok (.ldF 4), .ok (.ldB 0), .ok (.ldMemVx 1), .ok (.ldVxMem 2)]

/-- R66: the illegal words are exactly the six classes of the table, each refused under its own name. -/
def Obligations.IllegalWordsAreTheSixClasses : Prop :=
  ∀ w : Word,
    (decodeWord w = .error .illegal0NNN ↔ w.toNat / 4096 = 0 ∧ w ≠ 0x00E0 ∧ w ≠ 0x00EE) ∧
    (decodeWord w = .error .illegal5XYN ↔ w.toNat / 4096 = 5 ∧ w.toNat % 16 ≠ 0) ∧
    (decodeWord w = .error .illegal8XYN ↔
      w.toNat / 4096 = 8 ∧ w.toNat % 16 ∈ [0x8, 0x9, 0xA, 0xB, 0xC, 0xD, 0xF]) ∧
    (decodeWord w = .error .illegal9XYN ↔ w.toNat / 4096 = 9 ∧ w.toNat % 16 ≠ 0) ∧
    (decodeWord w = .error .illegalEXNN ↔ w.toNat / 4096 = 0xE ∧ w.toNat % 256 ∉ [0x9E, 0xA1]) ∧
    (decodeWord w = .error .illegalFXNN ↔
      w.toNat / 4096 = 0xF ∧ w.toNat % 256 ∉ [0x07, 0x0A, 0x15, 0x18, 0x1E, 0x29, 0x33, 0x55, 0x65]) ∧
    decodeWord w ≠ .error .truncated

/-- R67: `0NNN` other than 00E0 and 00EE, 0x0000 among them, raises `DecodeError`. -/
def Obligations.MachineRoutineCallIsDecodeError : Prop :=
  ∀ (s : State) (w : Word), s.wait = none → s.memRead2 s.pc.toNat = w → w.toNat / 4096 = 0 →
    w ≠ 0x00E0 → w ≠ 0x00EE → step s = .fault (.decodeError w s.pc)

/-! ## Errors -/

/-- R171: a transaction that raises an error changes no state, and raises it again. -/
def Obligations.ErrorsChangeNoStateAndRepeat : Prop :=
  ∀ (tx : Transaction) (s t : State) (f : Fault), transact tx s = (t, .error f) →
    t = s ∧ transact tx t = (s, .error f)

/-- R170: which transaction raises which error, exactly when, with which information and code; and no
transaction is refused. -/
def Obligations.ErrorsAreExactlyTheTaxonomy : Prop :=
  (∀ (tx : Transaction) (s : State) (f : Fault), (transact tx s).2 = .error f ↔
    (∃ bytes, tx = .load bytes ∧ bytes.length > 3584 ∧ f = .loadTooLarge bytes.length) ∨
    (tx = .step ∧ s.wait = none ∧ (∃ e, decodeWord s.fetch = .error e) ∧ f = .decodeError s.fetch s.pc) ∨
    (tx = .step ∧ s.wait = none ∧ (∃ nnn, decodeWord s.fetch = .ok (.call nnn)) ∧ s.sp.val = 16 ∧
      f = .stackOverflow s.pc) ∨
    (tx = .step ∧ s.wait = none ∧ decodeWord s.fetch = .ok .ret ∧ s.sp.val = 0 ∧ f = .stackUnderflow s.pc) ∨
    (∃ index pressed, tx = .setKey index pressed ∧ index > 15 ∧ f = .invalidKeyIndex index)) ∧
  (∀ (tx : Transaction) (s : State) (r : Refusal), (transact tx s).2 ≠ .refused r) ∧
  (∀ n pc op k, (Fault.loadTooLarge n).code = 1 ∧ (Fault.decodeError op pc).code = 2 ∧
    (Fault.stackOverflow pc).code = 3 ∧ (Fault.stackUnderflow pc).code = 4 ∧ (Fault.invalidKeyIndex k).code = 5) ∧
  Response.ok.code = some 0 ∧ ∀ f : Fault, (Response.error f).code = some f.code

/-! ## Control transfer -/

/-- R100: RET pops, or underflows with an empty stack. -/
def Obligations.ReturnPopsOrUnderflows : Prop :=
  decodeWord 0x00EE = .ok .ret ∧
  (∀ s : State, s.sp.val = 0 → exec .ret s = .fault (.stackUnderflow s.pc)) ∧
  (∀ (s : State) (k : Nat) (hk : k < 16), s.sp.val = k + 1 →
    exec .ret s = .next { s with sp := ⟨k, Nat.lt_succ_of_lt hk⟩, pc := s.stack[k] })

/-- R101: JP sets PC to NNN and nothing else. -/
def Obligations.JumpSetsPcToAddress : Prop :=
  ∀ (nnn : Addr) (s : State),
    decodeWord (0x1#4 ++ nnn) = .ok (.jp nnn) ∧
    exec (.jp nnn) s = .next { s with pc := BitVec.ofNat 16 nnn.toNat }

/-- R102: CALL pushes the advanced PC and jumps, or overflows with a full stack. -/
def Obligations.CallPushesOrOverflows : Prop :=
  ∀ (nnn : Addr) (s : State),
    decodeWord (0x2#4 ++ nnn) = .ok (.call nnn) ∧
    (s.sp.val = 16 → exec (.call nnn) s = .fault (.stackOverflow s.pc)) ∧
    (∀ h : s.sp.val < 16, exec (.call nnn) s = .next { s with
      stack := s.stack.set s.sp.val (s.pcPlus 2) h,
      sp := ⟨s.sp.val + 1, Nat.succ_lt_succ h⟩,
      pc := BitVec.ofNat 16 nnn.toNat })

/-- R103, R104: the skips on a register and an immediate write PC alone. -/
def Obligations.ImmediateSkipsCompareUnsigned : Prop :=
  ∀ (x : Reg) (nn : Byte) (s : State),
    decodeWord (0x3#4 ++ x ++ nn) = .ok (.seImm x nn) ∧
    decodeWord (0x4#4 ++ x ++ nn) = .ok (.sneImm x nn) ∧
    exec (.seImm x nn) s =
      .next { s with pc := if (s.getV x).toNat = nn.toNat then s.pcPlus 4 else s.pcPlus 2 } ∧
    exec (.sneImm x nn) s =
      .next { s with pc := if (s.getV x).toNat ≠ nn.toNat then s.pcPlus 4 else s.pcPlus 2 }

/-- R105, R106: the skips on two registers write PC alone; with another last digit the word is illegal. -/
def Obligations.RegisterSkipsCompareUnsigned : Prop :=
  ∀ (x y : Reg) (s : State),
    decodeWord (0x5#4 ++ x ++ y ++ 0x0#4) = .ok (.seReg x y) ∧
    decodeWord (0x9#4 ++ x ++ y ++ 0x0#4) = .ok (.sneReg x y) ∧
    (∀ n : Nibble, n ≠ 0 → decodeWord (0x5#4 ++ x ++ y ++ n) = .error .illegal5XYN ∧
      decodeWord (0x9#4 ++ x ++ y ++ n) = .error .illegal9XYN) ∧
    exec (.seReg x y) s =
      .next { s with pc := if (s.getV x).toNat = (s.getV y).toNat then s.pcPlus 4 else s.pcPlus 2 } ∧
    exec (.sneReg x y) s =
      .next { s with pc := if (s.getV x).toNat ≠ (s.getV y).toNat then s.pcPlus 4 else s.pcPlus 2 }

/-- R108: JP V0 adds V0, whatever the top digit of NNN, and stores the sum unmasked; the next fetch reads
at the sum modulo 4096. -/
def Obligations.JumpWithOffsetAddsV0 : Prop :=
  ∀ (nnn : Addr) (s : State),
    decodeWord (0xB#4 ++ nnn) = .ok (.jpV0 nnn) ∧
    exec (.jpV0 nnn) s = .next { s with pc := BitVec.ofNat 16 ((s.getV 0).toNat + nnn.toNat) } ∧
    (s.getV 0).toNat + nnn.toNat ≤ 0x10FE ∧
    ∀ t, exec (.jpV0 nnn) s = .next t → t.fetch = s.memRead2 (((s.getV 0).toNat + nnn.toNat) % 4096)

/-- A call followed at its target by a return comes back to the instruction after the call with the
stack size restored, and changes nothing else but the stack slot it used. -/
def Obligations.CallThenReturnComesBack : Prop :=
  ∀ (s : State) (nnn : Addr), s.wait = none → s.sp.val < 16 →
    decodeWord (s.memRead2 s.pc.toNat) = .ok (.call nnn) → s.memRead2 nnn.toNat = 0x00EE →
    ∃ t u, step s = .next t ∧ step t = .next u ∧
      u = { s with stack := u.stack, pc := s.pcPlus 2 } ∧
      ∀ k (h : k < 16), k ≠ s.sp.val → u.stack[k] = s.stack[k]

/-! ## Registers and ALU -/

/-- R121, R123: load immediate and copy write `V[X]` and PC alone. -/
def Obligations.LoadImmediateAndCopy : Prop :=
  ∀ (x y : Reg) (nn : Byte) (s : State),
    decodeWord (0x6#4 ++ x ++ nn) = .ok (.ldImm x nn) ∧
    decodeWord (0x8#4 ++ x ++ y ++ 0x0#4) = .ok (.ldReg x y) ∧
    exec (.ldImm x nn) s = .next { s.setV x nn with pc := s.pcPlus 2 } ∧
    exec (.ldReg x y) s = .next { s.setV x (s.getV y) with pc := s.pcPlus 2 }

/-- R122: add immediate wraps and writes no flag: `V[X]` and PC alone. -/
def Obligations.AddImmediateWrapsWithoutFlag : Prop :=
  ∀ (x : Reg) (nn : Byte) (s : State),
    decodeWord (0x7#4 ++ x ++ nn) = .ok (.addImm x nn) ∧
    exec (.addImm x nn) s = .next
      { s.setV x (BitVec.ofNat 8 (((s.getV x).toNat + nn.toNat) % 256)) with pc := s.pcPlus 2 }

/-- R124, R125, R126: OR, AND, XOR bit by bit; `V[X]` and PC alone, VF left as it was. -/
def Obligations.LogicOperationsAreBitwise : Prop :=
  ∀ (x y : Reg) (s : State),
    decodeWord (0x8#4 ++ x ++ y ++ 0x1#4) = .ok (.orReg x y) ∧
    decodeWord (0x8#4 ++ x ++ y ++ 0x2#4) = .ok (.andReg x y) ∧
    decodeWord (0x8#4 ++ x ++ y ++ 0x3#4) = .ok (.xorReg x y) ∧
    (∃ r : Byte, (∀ k, k < 8 → r.getLsbD k = ((s.getV x).getLsbD k || (s.getV y).getLsbD k)) ∧
      exec (.orReg x y) s = .next { s.setV x r with pc := s.pcPlus 2 }) ∧
    (∃ r : Byte, (∀ k, k < 8 → r.getLsbD k = ((s.getV x).getLsbD k && (s.getV y).getLsbD k)) ∧
      exec (.andReg x y) s = .next { s.setV x r with pc := s.pcPlus 2 }) ∧
    (∃ r : Byte, (∀ k, k < 8 → r.getLsbD k = ((s.getV x).getLsbD k ^^ (s.getV y).getLsbD k)) ∧
      exec (.xorReg x y) s = .next { s.setV x r with pc := s.pcPlus 2 })

/-- R127: ADD stores the sum modulo 256, then VF receives the carry (so VF keeps the flag when X = F). -/
def Obligations.AddSetsCarryInVF : Prop :=
  ∀ (x y : Reg) (s : State),
    decodeWord (0x8#4 ++ x ++ y ++ 0x4#4) = .ok (.addReg x y) ∧
    exec (.addReg x y) s = .next
      { (s.setV x (BitVec.ofNat 8 (((s.getV x).toNat + (s.getV y).toNat) % 256))).setV 0xF
          (if (s.getV x).toNat + (s.getV y).toNat > 255 then 1 else 0) with pc := s.pcPlus 2 }

/-- R128, R130: SUB and SUBN wrap modulo 256; VF is 1 when there is no borrow, written last. -/
def Obligations.SubtractionsSetNotBorrowInVF : Prop :=
  ∀ (x y : Reg) (s : State),
    decodeWord (0x8#4 ++ x ++ y ++ 0x5#4) = .ok (.subReg x y) ∧
    decodeWord (0x8#4 ++ x ++ y ++ 0x7#4) = .ok (.subnReg x y) ∧
    exec (.subReg x y) s = .next
      { (s.setV x (BitVec.ofInt 8 (((s.getV x).toNat - (s.getV y).toNat : Int) % 256))).setV 0xF
          (if (s.getV x).toNat ≥ (s.getV y).toNat then 1 else 0) with pc := s.pcPlus 2 } ∧
    exec (.subnReg x y) s = .next
      { (s.setV x (BitVec.ofInt 8 (((s.getV y).toNat - (s.getV x).toNat : Int) % 256))).setV 0xF
          (if (s.getV y).toNat ≥ (s.getV x).toNat then 1 else 0) with pc := s.pcPlus 2 }

/-- R129, R131: the shifts move `V[X]` by one bit in place, Y ignored; VF is the bit moved out, written
last. -/
def Obligations.ShiftsMoveOneBitIntoVF : Prop :=
  ∀ (x y : Reg) (s : State),
    decodeWord (0x8#4 ++ x ++ y ++ 0x6#4) = .ok (.shr x y) ∧
    decodeWord (0x8#4 ++ x ++ y ++ 0xE#4) = .ok (.shl x y) ∧
    exec (.shr x y) s = .next
      { (s.setV x (BitVec.ofNat 8 ((s.getV x).toNat / 2))).setV 0xF
          (BitVec.ofNat 8 ((s.getV x).toNat % 2)) with pc := s.pcPlus 2 } ∧
    exec (.shl x y) s = .next
      { (s.setV x (BitVec.ofNat 8 ((s.getV x).toNat * 2 % 256))).setV 0xF
          (BitVec.ofNat 8 ((s.getV x).toNat / 128)) with pc := s.pcPlus 2 }

/-- R132: RND stores a free byte under the mask; the draw is the model's free value (log entry 2), of
which nothing is assumed. Bits that are 0 in NN are 0 in the result. -/
def Obligations.RandomByteUnderMask : Prop :=
  ∀ (x : Reg) (nn : Byte) (s : State),
    decodeWord (0xC#4 ++ x ++ nn) = .ok (.rnd x nn) ∧
    ∃ r : Byte, exec (.rnd x nn) s = .next
        { s.setV x (r &&& nn) with draws := s.draws + 1, pc := s.pcPlus 2 } ∧
      ∀ k, nn.getLsbD k = false → (r &&& nn).getLsbD k = false

/-- R11: an instruction changes no register it may not write, and the six flag writers leave VF exactly
0 or 1. -/
def Obligations.RegistersChangeOnlyByTheirWriters : Prop :=
  ∀ (i : Instr) (s t : State), exec i s = .next t →
    (∀ k, ¬ Instr.mayWrite i k → t.getV k = s.getV k) ∧
    (Instr.setsFlag i = true → t.getV vF = 0 ∨ t.getV vF = 1)

/-! ## Index register and memory -/

/-- R140, R141, R142: the three writers of I; no flag, no mask, and LD F reads no memory. -/
def Obligations.IndexRegisterWriters : Prop :=
  ∀ (nnn : Addr) (x : Reg) (s : State),
    decodeWord (0xA#4 ++ nnn) = .ok (.ldI nnn) ∧
    decodeWord (0xF#4 ++ x ++ 0x1E#8) = .ok (.addI x) ∧
    decodeWord (0xF#4 ++ x ++ 0x29#8) = .ok (.ldF x) ∧
    exec (.ldI nnn) s = .next { s with i := BitVec.ofNat 16 nnn.toNat, pc := s.pcPlus 2 } ∧
    exec (.addI x) s = .next
      { s with i := BitVec.ofNat 16 ((s.i.toNat + (s.getV x).toNat) % 65536), pc := s.pcPlus 2 } ∧
    exec (.ldF x) s = .next
      { s with i := BitVec.ofNat 16 (5 * ((s.getV x).toNat % 16)), pc := s.pcPlus 2 }

/-- R143: the three decimal digits at I, I+1, I+2, wrapping at 0xFFF; every other byte, and every element
but PC, unchanged. -/
def Obligations.DecimalDigitsAreStored : Prop :=
  ∀ (x : Reg) (s : State),
    decodeWord (0xF#4 ++ x ++ 0x33#8) = .ok (.ldB x) ∧
    ∃ t, exec (.ldB x) s = .next t ∧
      (t.memRead s.i.toNat).toNat = (s.getV x).toNat / 100 ∧
      (t.memRead (s.i.toNat + 1)).toNat = (s.getV x).toNat / 10 % 10 ∧
      (t.memRead (s.i.toNat + 2)).toNat = (s.getV x).toNat % 10 ∧
      (∀ a, a < 4096 → (∀ k, k < 3 → a ≠ (s.i.toNat + k) % 4096) → t.memRead a = s.memRead a) ∧
      t = { s with mem := t.mem, pc := s.pcPlus 2 }

/-- R144: `V[0]..V[X]` at I..I+X, wrapping at 0xFFF; every other byte, and every element but PC,
unchanged. -/
def Obligations.RegistersAreStoredAtIndex : Prop :=
  ∀ (x : Reg) (s : State),
    decodeWord (0xF#4 ++ x ++ 0x55#8) = .ok (.ldMemVx x) ∧
    ∃ t, exec (.ldMemVx x) s = .next t ∧
      (∀ k : Reg, k.toNat ≤ x.toNat → t.memRead (s.i.toNat + k.toNat) = s.getV k) ∧
      (∀ a, a < 4096 → (∀ k : Reg, k.toNat ≤ x.toNat → a ≠ (s.i.toNat + k.toNat) % 4096) →
        t.memRead a = s.memRead a) ∧
      t = { s with mem := t.mem, pc := s.pcPlus 2 }

/-- R145: `V[0]..V[X]` from I..I+X, wrapping at 0xFFF; every other register, and every element but PC,
unchanged. -/
def Obligations.RegistersAreLoadedFromIndex : Prop :=
  ∀ (x : Reg) (s : State),
    decodeWord (0xF#4 ++ x ++ 0x65#8) = .ok (.ldVxMem x) ∧
    ∃ t, exec (.ldVxMem x) s = .next t ∧
      (∀ k : Reg, k.toNat ≤ x.toNat → t.getV k = Memory.read s.mem ((s.i.toNat + k.toNat) % 4096)) ∧
      (∀ k : Reg, x.toNat < k.toNat → t.getV k = s.getV k) ∧
      t = { s with v := t.v, pc := s.pcPlus 2 }

/-- What LD [I],Vx stored, LD Vx,[I] reads back, whatever the registers hold in between, as long as
memory and I are kept. -/
def Obligations.StoredRegistersLoadBack : Prop :=
  ∀ (x : Reg) (s t u w : State), exec (.ldMemVx x) s = .next t → u.mem = t.mem → u.i = t.i →
    exec (.ldVxMem x) u = .next w → ∀ k : Reg, k.toNat ≤ x.toNat → w.getV k = s.getV k

/-- R53: a store is seen by the very next fetch: the byte a register store put where the next
instruction stands is the byte fetched. -/
def Obligations.NextFetchSeesTheStore : Prop :=
  ∀ (x : Reg) (s : State), ∃ t, exec (.ldMemVx x) s = .next t ∧
    ∀ k j : Reg, k.toNat ≤ x.toNat → j.toNat ≤ x.toNat →
      (s.i.toNat + k.toNat) % 4096 = (s.pc.toNat + 2) % 4096 →
      (s.i.toNat + j.toNat) % 4096 = (s.pc.toNat + 3) % 4096 →
      t.fetch.toNat = 256 * (s.getV k).toNat + (s.getV j).toNat

/-! ## Display -/

/-- R150: every cell 0 and REDRAW set, whatever they were; VF, and every element but PC, unchanged. -/
def Obligations.ClearScreenBlanksEveryCell : Prop :=
  decodeWord 0x00E0 = .ok .cls ∧
  ∀ s : State, ∃ t, exec .cls s = .next t ∧
    (∀ x y, x < 64 → y < 32 → pixel t.fb x y = false) ∧
    t = { s with fb := t.fb, redraw := true, pc := s.pcPlus 2 }

/-- R151, R152: under either edge policy a draw inverts exactly the covered cells, and VF is 1 exactly
when a covered cell was 1 before; REDRAW is set; every other register and element but PC is
unchanged. The core draws under its own policy. -/
def Obligations.DrawInvertsCoveredCellsAndDetectsCollision : Prop :=
  ∀ (x y : Reg) (n : Nibble) (s : State),
    decodeWord (0xD#4 ++ x ++ y ++ n) = .ok (.drw x y n) ∧
    exec (.drw x y n) s = .next (drawAt Config.edgePolicy x y n s) ∧
    ∀ policy : EdgePolicy,
      let t := drawAt policy x y n s
      let covered := spriteCovers policy ((s.getV x).toNat % 64) ((s.getV y).toNat % 32)
        (fun r => Memory.read s.mem ((s.i.toNat + r) % 4096)) n.toNat
      (∀ px py, px < 64 → py < 32 →
        (covered px py → pixel t.fb px py = !pixel s.fb px py) ∧
        (¬ covered px py → pixel t.fb px py = pixel s.fb px py)) ∧
      ((∃ px py, px < 64 ∧ py < 32 ∧ covered px py ∧ pixel s.fb px py = true) → t.getV vF = 1) ∧
      ((¬ ∃ px py, px < 64 ∧ py < 32 ∧ covered px py ∧ pixel s.fb px py = true) → t.getV vF = 0) ∧
      (∀ k, k ≠ vF → t.getV k = s.getV k) ∧
      t = { s with v := t.v, fb := t.fb, redraw := true, pc := s.pcPlus 2 }

/-- R153 (its precise form is the spec's own derivation): under either policy, the same draw twice (X and Y not F) restores the framebuffer, and the
second sets VF exactly when some covered cell was 0 before the first. -/
def Obligations.DrawingTwiceRestoresTheFramebuffer : Prop :=
  ∀ (policy : EdgePolicy) (x y : Reg) (n : Nibble) (s : State), x ≠ vF → y ≠ vF →
    let t := drawAt policy x y n s
    let u := drawAt policy x y n t
    let covered := spriteCovers policy ((s.getV x).toNat % 64) ((s.getV y).toNat % 32)
      (fun r => Memory.read s.mem ((s.i.toNat + r) % 4096)) n.toNat
    u.fb = s.fb ∧
    (u.getV vF = 1 ↔ ∃ px py, px < 64 ∧ py < 32 ∧ covered px py ∧ pixel s.fb px py = false) ∧
    (u.getV vF = 0 ∨ u.getV vF = 1)

/-! ## Keypad and timers -/

/-- R160, R161: the key skips test the key numbered by the low nibble and write PC alone. -/
def Obligations.KeySkipsTestTheLowNibbleKey : Prop :=
  ∀ (x : Reg) (s : State),
    decodeWord (0xE#4 ++ x ++ 0x9E#8) = .ok (.skp x) ∧
    decodeWord (0xE#4 ++ x ++ 0xA1#8) = .ok (.sknp x) ∧
    exec (.skp x) s = .next { s with
      pc := if s.key.getLsbD ((s.getV x).toNat % 16) = true then s.pcPlus 4 else s.pcPlus 2 } ∧
    exec (.sknp x) s = .next { s with
      pc := if s.key.getLsbD ((s.getV x).toNat % 16) = false then s.pcPlus 4 else s.pcPlus 2 }

/-- R162: LD Vx,K only enters the wait, with the keys already down as the snapshot; PC stays. -/
def Obligations.KeyWaitBeginsWithASnapshot : Prop :=
  ∀ (x : Reg) (s : State),
    decodeWord (0xF#4 ++ x ++ 0x0A#8) = .ok (.ldVxK x) ∧
    exec (.ldVxK x) s = .next { s with wait := some x, waitKeys := s.key }

/-- R163: a step of a waiting core completes with the least newly pressed key, or only forgets the keys
seen released. -/
def Obligations.KeyWaitCompletesWithTheLeastNewKey : Prop :=
  ∀ (s : State) (r : Reg), s.wait = some r →
    (∀ k, k < 16 → s.newlyPressed k → (∀ j, j < k → ¬ s.newlyPressed j) →
      step s = .next { s.setV r (BitVec.ofNat 8 k) with wait := none, waitKeys := 0, pc := s.pcPlus 2 }) ∧
    ((∀ k, k < 16 → ¬ s.newlyPressed k) →
      ∃ t, step s = .next t ∧ t = { s with waitKeys := t.waitKeys } ∧
        ∀ k, k < 16 → t.waitKeys.getLsbD k = (s.waitKeys.getLsbD k && s.key.getLsbD k))

/-- R191, R212: without a reset or a key event, no sequence of steps, ticks, loads and host reads ends a
wait that has no newly pressed key. -/
def Obligations.OnlyAKeyOrResetEndsTheWait : Prop :=
  ∀ (txs : List Transaction) (s : State) (r : Reg), s.wait = some r →
    (∀ k, k < 16 → ¬ s.newlyPressed k) →
    (∀ tx ∈ txs, tx ≠ .reset ∧ ∀ index pressed, tx ≠ .setKey index pressed) →
    (runAll txs s).wait = some r ∧ ∀ x, (runAll txs s).getV x = s.getV x

/-- R164, R165, R166: the moves between a register and a timer. -/
def Obligations.TimerMoves : Prop :=
  ∀ (x : Reg) (s : State),
    decodeWord (0xF#4 ++ x ++ 0x07#8) = .ok (.ldVxDt x) ∧
    decodeWord (0xF#4 ++ x ++ 0x15#8) = .ok (.ldDtVx x) ∧
    decodeWord (0xF#4 ++ x ++ 0x18#8) = .ok (.ldStVx x) ∧
    exec (.ldVxDt x) s = .next { s.setV x s.dt with pc := s.pcPlus 2 } ∧
    exec (.ldDtVx x) s = .next { s with dt := s.getV x, pc := s.pcPlus 2 } ∧
    exec (.ldStVx x) s = .next { s with st := s.getV x, pc := s.pcPlus 2 }

/-! ## Host transactions -/

/-- R180, R181, R183: a tick takes each timer down by one, saturating at 0, and touches nothing else;
its beep is that ST was exactly 1. -/
def Obligations.TickCountsBothTimersDown : Prop :=
  ∀ s : State, transact .tickTimers s =
    ({ s with dt := BitVec.ofNat 8 (s.dt.toNat - 1), st := BitVec.ofNat 8 (s.st.toNat - 1) },
      .beep (decide (s.st.toNat = 1)))

/-- R182: a countdown started with ST = n beeps exactly once, on its n-th tick; and both timers have
then gone down by the number of ticks, saturating at 0. -/
def Obligations.CountdownBeepsOnceOnItsLastTick : Prop :=
  ∀ (s : State) (m : Nat),
    (transact .tickTimers (runAll (List.replicate m .tickTimers) s)).2 =
      .beep (decide (s.st.toNat = m + 1)) ∧
    (runAll (List.replicate m .tickTimers) s).dt.toNat = s.dt.toNat - m ∧
    (runAll (List.replicate m .tickTimers) s).st.toNat = s.st.toNat - m

/-- R184, R185, R186: set_key sets one key's level and nothing else; an index above 15 is an error that
changes nothing; setting a level again changes nothing. -/
def Obligations.SetKeySetsOneLevel : Prop :=
  ∀ (index : Nat) (pressed : Bool) (s : State),
    (index < 16 → ∃ t, transact (.setKey index pressed) s = (t, .ok) ∧
      (∀ k, k < 16 → t.key.getLsbD k = if k = index then pressed else s.key.getLsbD k) ∧
      t = { s with key := t.key } ∧ transact (.setKey index pressed) t = (t, .ok)) ∧
    (index > 15 → transact (.setKey index pressed) s = (s, .error (.invalidKeyIndex index)))

/-- R187: framebuffer() returns the 2048 cells, element y*64 + x the cell (x, y), and changes nothing. -/
def Obligations.FramebufferReturnsEveryCell : Prop :=
  ∀ s : State, ∃ cells : List Bool, transact .framebuffer s = (s, .grid cells) ∧ cells.length = 2048 ∧
    ∀ x y, x < 64 → y < 32 → cells[y * 64 + x]? = some (pixel s.fb x y)

/-- R188: consume_redraw_flag() returns REDRAW and clears it, and nothing else changes; only it and reset
clear REDRAW, and only a step that executes CLS or DRW sets it. -/
def Obligations.ConsumeReadsAndClearsRedraw : Prop :=
  (∀ s : State, transact .consumeRedrawFlag s = ({ s with redraw := false }, .redraw s.redraw)) ∧
  (∀ (tx : Transaction) (s : State), s.redraw = true → (transact tx s).1.redraw = false →
    tx = .reset ∨ tx = .consumeRedrawFlag) ∧
  (∀ (tx : Transaction) (s : State), s.redraw = false → (transact tx s).1.redraw = true →
    tx = .step ∧ s.wait = none ∧
      (decodeWord s.fetch = .ok .cls ∨ ∃ x y n, decodeWord s.fetch = .ok (.drw x y n)))

/-! ## Whole-machine rules -/

/-- No instruction writes KEY; each other element but PC and V changes only by the instructions the spec
names as its writers (R13 to R21, R189). -/
def Obligations.EachElementHasItsOnlyWriters : Prop :=
  ∀ (i : Instr) (s t : State), exec i s = .next t →
    t.key = s.key ∧
    (t.i ≠ s.i → (∃ nnn, i = .ldI nnn) ∨ (∃ x, i = .addI x) ∨ ∃ x, i = .ldF x) ∧
    (t.mem ≠ s.mem → (∃ x, i = .ldB x) ∨ ∃ x, i = .ldMemVx x) ∧
    (t.stack ≠ s.stack → ∃ nnn, i = .call nnn) ∧
    (t.sp ≠ s.sp → (∃ nnn, i = .call nnn) ∨ i = .ret) ∧
    (t.dt ≠ s.dt → ∃ x, i = .ldDtVx x) ∧
    (t.st ≠ s.st → ∃ x, i = .ldStVx x) ∧
    (t.fb ≠ s.fb → i = .cls ∨ ∃ x y n, i = .drw x y n) ∧
    (t.redraw ≠ s.redraw → t.redraw = true ∧ (i = .cls ∨ ∃ x y n, i = .drw x y n)) ∧
    (t.wait ≠ s.wait ∨ t.waitKeys ≠ s.waitKeys → ∃ x, i = .ldVxK x) ∧
    (t.draws ≠ s.draws → ∃ x nn, i = .rnd x nn)

/-- R189: apart from step and reset, no transaction writes a register, I, SP, STACK, FB or the wait
state; only load writes MEM or PC. -/
def Obligations.HostTransactionsKeepTheProgramsState : Prop :=
  ∀ (tx : Transaction) (s : State), tx ≠ .step → tx ≠ .reset →
    (∃ mem pc dt st key redraw, (transact tx s).1 =
      { s with mem := mem, pc := pc, dt := dt, st := st, key := key, redraw := redraw }) ∧
    ((∀ bytes, tx ≠ .load bytes) → (transact tx s).1.mem = s.mem ∧ (transact tx s).1.pc = s.pc)

/-- The state after reset meets the invariant; the canonical memory form in it is the model's own choice
(log entry 8). -/
def Obligations.InvariantHoldsAfterReset : Prop := State.reset.Inv

/-- Every step that goes on keeps the invariant; the canonical memory form in it is the model's own choice
(log entry 8). -/
def Obligations.StepKeepsTheInvariant : Prop :=
  ∀ s t : State, s.Inv → step s = .next t → t.Inv

/-- Whatever the interleaving of the agents (R6), every reachable state meets the invariant, and the bounds
of R26 on the registers hold in it. R26 gives the bounds alone: the canonical memory form in the
invariant is the model's own choice (log entry 8), and that WAIT_KEYS is 0 while no wait is pending is
read from R163 and R24. -/
def Obligations.EveryReachableStateMeetsTheInvariant : Prop :=
  ∀ s : State, Reachable s →
    s.Inv ∧ s.sp.val ≤ 16 ∧ (∀ k, (s.getV k).toNat ≤ 255) ∧ s.dt.toNat ≤ 255 ∧ s.st.toNat ≤ 255 ∧
      s.i.toNat ≤ 65535 ∧ s.pc.toNat ≤ 65535 ∧ ∀ r, s.wait = some r → r.toNat ≤ 15

/-- R27 (the spec marks it as its own derivation): bits 15-12 of PC, I and the STACK entries are invisible: states that differ only there stay so
under every transaction and give the same answer, but for bits 15-12 of the PC an error reports. Both
states are taken with the same draw counter, so by the model's own choice (log entry 2) RND draws the
same byte in both: the statement says nothing of two runs that draw different bytes. -/
def Obligations.HighBitsOfAddressesAreInvisible : Prop :=
  ∀ (tx : Transaction) (s t : State), SameUpToHighBits s t →
    SameUpToHighBits (transact tx s).1 (transact tx t).1 ∧
    ((transact tx s).2 = (transact tx t).2 ∨
      ∃ f g, (transact tx s).2 = .error f ∧ (transact tx t).2 = .error g ∧ f.sameButHighPc g)

/-- R220 (a): at a jump to itself with PC inside memory a step changes nothing; with PC above 0xFFF the
first step only brings PC to the same address below (log entry 18), and then nothing changes. -/
def Obligations.IdleLoopStays : Prop :=
  ∀ s : State, s.idleLoop →
    (s.pc.toNat < 4096 → step s = .next s) ∧
    ∃ t, step s = .next t ∧ t = { s with pc := t.pc } ∧ sameLow12 t.pc s.pc ∧ step t = .next t

/-- R220 (b), R172: a fault is never left by steps and ticks: the same error is raised again. -/
def Obligations.FaultStaysThroughStepsAndTicks : Prop :=
  ∀ (txs : List Transaction) (s : State) (f : Fault), s.wait = none → step s = .fault f →
    (∀ tx ∈ txs, tx = .step ∨ tx = .tickTimers) →
    step (runAll txs s) = .fault f ∧ (runAll txs s).pc = s.pc
end

