-- ==== Sys2Proof/Laws/Decode.lean ====
section
/-! SUPPORT. What each field of a word laid out in one of the formats is (spec/30_encoding.md R63, R64). -/

namespace Sys2Proof

theorem wordR_toNat (op : Nibble) (x y : Reg) (n : Nibble) :
    (wordR op x y n).toNat = op.toNat * 4096 + x.toNat * 256 + y.toNat * 16 + n.toNat := by
  have h1 : (op ++ x ++ y ++ n).toNat = (op ++ x ++ y).toNat <<< 4 ||| n.toNat := BitVec.toNat_append ..
  have h2 : (op ++ x ++ y).toNat = (op ++ x).toNat <<< 4 ||| y.toNat := BitVec.toNat_append ..
  have h3 : (op ++ x).toNat = op.toNat <<< 4 ||| x.toNat := BitVec.toNat_append ..
  show (op ++ x ++ y ++ n).toNat = _
  rw [h1, h2, h3, ← Nat.shiftLeft_add_eq_or_of_lt n.isLt, ← Nat.shiftLeft_add_eq_or_of_lt y.isLt,
    ← Nat.shiftLeft_add_eq_or_of_lt x.isLt]
  simp only [Nat.shiftLeft_eq]
  omega

theorem wordI_toNat (op : Nibble) (x : Reg) (nn : Byte) :
    (wordI op x nn).toNat = op.toNat * 4096 + x.toNat * 256 + nn.toNat := by
  have h1 : (op ++ x ++ nn).toNat = (op ++ x).toNat <<< 8 ||| nn.toNat := BitVec.toNat_append ..
  have h2 : (op ++ x).toNat = op.toNat <<< 4 ||| x.toNat := BitVec.toNat_append ..
  show (op ++ x ++ nn).toNat = _
  rw [h1, h2, ← Nat.shiftLeft_add_eq_or_of_lt nn.isLt, ← Nat.shiftLeft_add_eq_or_of_lt x.isLt]
  simp only [Nat.shiftLeft_eq]
  omega

theorem wordA_toNat (op : Nibble) (nnn : Addr) :
    (wordA op nnn).toNat = op.toNat * 4096 + nnn.toNat := by
  have h1 : (op ++ nnn).toNat = op.toNat <<< 12 ||| nnn.toNat := BitVec.toNat_append ..
  show (op ++ nnn).toNat = _
  rw [h1, ← Nat.shiftLeft_add_eq_or_of_lt nnn.isLt]
  simp only [Nat.shiftLeft_eq]

theorem wordOfBytes_toNat (high low : Byte) :
    (wordOfBytes high low).toNat = high.toNat * 256 + low.toNat := by
  have h1 : (high ++ low).toNat = high.toNat <<< 8 ||| low.toNat := BitVec.toNat_append ..
  show (high ++ low).toNat = _
  rw [h1, ← Nat.shiftLeft_add_eq_or_of_lt low.isLt]
  simp only [Nat.shiftLeft_eq]

theorem topNibble_toNat (op : Word) : (topNibble op).toNat = op.toNat / 4096 := by
  have h := op.isLt
  simp only [topNibble, BitVec.extractLsb'_toNat, Nat.shiftRight_eq_div_pow]
  omega

theorem fieldX_toNat (op : Word) : (fieldX op).toNat = op.toNat / 256 % 16 := by
  simp [fieldX, Nat.shiftRight_eq_div_pow]

theorem fieldY_toNat (op : Word) : (fieldY op).toNat = op.toNat / 16 % 16 := by
  simp [fieldY, Nat.shiftRight_eq_div_pow]

theorem fieldN_toNat (op : Word) : (fieldN op).toNat = op.toNat % 16 := by
  simp [fieldN]

theorem fieldNN_toNat (op : Word) : (fieldNN op).toNat = op.toNat % 256 := by
  simp [fieldNN]

theorem fieldNNN_toNat (op : Word) : (fieldNNN op).toNat = op.toNat % 4096 := by
  simp [fieldNNN]

section Formats

variable (op : Nibble) (x y : Reg) (n : Nibble) (nn : Byte) (nnn : Addr)

@[simp] theorem topNibble_wordA : topNibble (wordA op nnn) = op :=
  BitVec.eq_of_toNat_eq (by rw [topNibble_toNat, wordA_toNat]; omega)
@[simp] theorem fieldNNN_wordA : fieldNNN (wordA op nnn) = nnn :=
  BitVec.eq_of_toNat_eq (by rw [fieldNNN_toNat, wordA_toNat]; omega)

@[simp] theorem topNibble_wordI : topNibble (wordI op x nn) = op :=
  BitVec.eq_of_toNat_eq (by rw [topNibble_toNat, wordI_toNat]; omega)
@[simp] theorem fieldX_wordI : fieldX (wordI op x nn) = x :=
  BitVec.eq_of_toNat_eq (by rw [fieldX_toNat, wordI_toNat]; omega)
@[simp] theorem fieldNN_wordI : fieldNN (wordI op x nn) = nn :=
  BitVec.eq_of_toNat_eq (by rw [fieldNN_toNat, wordI_toNat]; omega)

@[simp] theorem topNibble_wordR : topNibble (wordR op x y n) = op :=
  BitVec.eq_of_toNat_eq (by rw [topNibble_toNat, wordR_toNat]; omega)
@[simp] theorem fieldX_wordR : fieldX (wordR op x y n) = x :=
  BitVec.eq_of_toNat_eq (by rw [fieldX_toNat, wordR_toNat]; omega)
@[simp] theorem fieldY_wordR : fieldY (wordR op x y n) = y :=
  BitVec.eq_of_toNat_eq (by rw [fieldY_toNat, wordR_toNat]; omega)
@[simp] theorem fieldN_wordR : fieldN (wordR op x y n) = n :=
  BitVec.eq_of_toNat_eq (by rw [fieldN_toNat, wordR_toNat]; omega)

end Formats

/-- A word whose top nibble is the major opcode is format A's layout of its own fields. -/
theorem wordA_fields (op : Word) : wordA (topNibble op) (fieldNNN op) = op :=
  BitVec.eq_of_toNat_eq (by rw [wordA_toNat, topNibble_toNat, fieldNNN_toNat]; omega)

/-- Format I's layout of a word's own fields is the word. -/
theorem wordI_fields (op : Word) : wordI (topNibble op) (fieldX op) (fieldNN op) = op :=
  BitVec.eq_of_toNat_eq (by rw [wordI_toNat, topNibble_toNat, fieldX_toNat, fieldNN_toNat]; omega)

/-- Format R's layout of a word's own fields is the word. -/
theorem wordR_fields (op : Word) : wordR (topNibble op) (fieldX op) (fieldY op) (fieldN op) = op :=
  BitVec.eq_of_toNat_eq (by
    rw [wordR_toNat, topNibble_toNat, fieldX_toNat, fieldY_toNat, fieldN_toNat]; omega)

/-- The bytes of a word, read back in memory order, are the word. -/
@[simp] theorem wordOfBytes_bytes (op : Word) :
    wordOfBytes (op.extractLsb' 8 8) (op.extractLsb' 0 8) = op :=
  BitVec.eq_of_toNat_eq (by
    rw [wordOfBytes_toNat]
    simp [BitVec.extractLsb'_toNat, Nat.shiftRight_eq_div_pow]
    omega)

/-- Decoding two bytes is decoding the word they form. -/
theorem decode_pair (high low : Byte) (rest : List Byte) :
    decode (high :: low :: rest) = (decodeWord (wordOfBytes high low)).map (fun i => (i, rest)) := by
  simp only [decode]
  cases decodeWord (wordOfBytes high low) <;> rfl

/-! ### The digits a mask keeps (the columns of the table of R65) -/

theorem getLsbD_wordR (op : Nibble) (x y : Reg) (n : Nibble) (k : Nat) :
    (wordR op x y n).getLsbD k =
      if k < 4 then n.getLsbD k else if k - 4 < 4 then y.getLsbD (k - 4)
      else if k - 4 - 4 < 4 then x.getLsbD (k - 4 - 4) else op.getLsbD (k - 4 - 4 - 4) := by
  have h1 : (op ++ x ++ y ++ n).getLsbD k = _ := BitVec.getLsbD_append ..
  have h2 : (op ++ x ++ y).getLsbD (k - 4) = _ := BitVec.getLsbD_append ..
  have h3 : (op ++ x).getLsbD (k - 4 - 4) = _ := BitVec.getLsbD_append ..
  show (op ++ x ++ y ++ n).getLsbD k = _
  rw [h1, h2, h3]

/-- Format I is format R with the byte's two nibbles. -/
theorem wordI_eq_wordR (op : Nibble) (x : Reg) (nn : Byte) :
    wordI op x nn = wordR op x (nn.extractLsb' 4 4) (nn.extractLsb' 0 4) :=
  BitVec.eq_of_toNat_eq (by
    rw [wordI_toNat, wordR_toNat]
    simp [BitVec.extractLsb'_toNat, Nat.shiftRight_eq_div_pow]
    omega)

/-- Format A is format R with the address's three nibbles. -/
theorem wordA_eq_wordR (op : Nibble) (nnn : Addr) :
    wordA op nnn = wordR op (nnn.extractLsb' 8 4) (nnn.extractLsb' 4 4) (nnn.extractLsb' 0 4) :=
  BitVec.eq_of_toNat_eq (by
    rw [wordA_toNat, wordR_toNat]
    simp [BitVec.extractLsb'_toNat, Nat.shiftRight_eq_div_pow]
    omega)

theorem wordR_and_F000 (op : Nibble) (x y : Reg) (n : Nibble) :
    wordR op x y n &&& 0xF000 = wordR op 0 0 0 := by
  apply BitVec.eq_of_getLsbD_eq
  intro k hk
  rw [BitVec.getLsbD_and, getLsbD_wordR, getLsbD_wordR]
  interval_cases k <;> simp

theorem wordR_and_F00F (op : Nibble) (x y : Reg) (n : Nibble) :
    wordR op x y n &&& 0xF00F = wordR op 0 0 n := by
  apply BitVec.eq_of_getLsbD_eq
  intro k hk
  rw [BitVec.getLsbD_and, getLsbD_wordR, getLsbD_wordR]
  interval_cases k <;> simp

theorem wordR_and_F0FF (op : Nibble) (x y : Reg) (n : Nibble) :
    wordR op x y n &&& 0xF0FF = wordR op 0 y n := by
  apply BitVec.eq_of_getLsbD_eq
  intro k hk
  rw [BitVec.getLsbD_and, getLsbD_wordR, getLsbD_wordR]
  interval_cases k <;> simp

end Sys2Proof
end

