-- ==== Sys2Proof/Laws/Memory.lean ====
section
/-! SUPPORT. What a memory write does to each byte, and that every memory operation keeps the canonical
form (spec/20_memory.md R41, R43). -/

namespace Sys2Proof.Machine.Memory

@[simp] theorem read_nil (a : Nat) : Memory.read [] a = resetByte a := rfl

theorem lookup_insert (a b : Nat) (v : Byte) (m : Memory) :
    lookup (insert a v m) b = if b = a then some v else lookup m b := by
  induction m with
  | nil => by_cases h : b = a <;> simp [insert, lookup, h]
  | cons c rest ih =>
    obtain ⟨d, w⟩ := c
    unfold insert
    split
    · by_cases h : b = a <;> simp [lookup, h]
    · split
      · rename_i had
        subst had
        by_cases h : b = a <;> simp [lookup, h]
      · rename_i had
        simp only [lookup, ih]
        by_cases hbd : b = d
        · subst hbd
          simp [Ne.symm had]
        · simp [hbd]

theorem lookup_erase (a b : Nat) (m : Memory) :
    lookup (erase a m) b = if b = a then none else lookup m b := by
  induction m with
  | nil => simp [erase, lookup]
  | cons c rest ih =>
    obtain ⟨d, w⟩ := c
    simp only [erase] at ih
    by_cases hd : d = a <;> by_cases hb : b = a
    · subst hb
      simpa [erase, hd] using ih
    · simp [erase, lookup, hd, hb, ih]
    · subst hb
      simp [erase, lookup, hd, Ne.symm hd, ih]
    · simp [erase, lookup, hd, ih, hb]

/-- A write sets the byte at its own address and no other. -/
theorem read_write (m : Memory) (a b : Nat) (v : Byte) :
    read (write m a v) b = if b = a then v else read m b := by
  unfold write
  split
  · rename_i hv
    by_cases h : b = a <;> simp [read, lookup_erase, h, hv]
  · by_cases h : b = a <;> simp [read, lookup_insert, h]

theorem mem_insert {a : Nat} {v : Byte} {m : Memory} {c : Host.Cell} (h : c ∈ insert a v m) :
    c = (a, v) ∨ c ∈ m := by
  induction m with
  | nil => simpa [insert] using h
  | cons d rest ih =>
    obtain ⟨b, w⟩ := d
    unfold insert at h
    split at h
    · simpa using h
    · split at h
      · rcases List.mem_cons.mp h with h | h
        · exact .inl h
        · exact .inr (List.mem_cons_of_mem _ h)
      · rcases List.mem_cons.mp h with h | h
        · exact .inr (h ▸ List.mem_cons_self)
        · exact (ih h).imp_right (List.mem_cons_of_mem _)

theorem wf_erase {m : Memory} (a : Nat) (h : wf m) : wf (erase a m) :=
  ⟨h.1.filter _, fun c hc => h.2 c (List.mem_of_mem_filter hc)⟩

theorem wf_insert {m : Memory} {a : Nat} {v : Byte} (ha : a < 4096) (hv : v ≠ resetByte a) (h : wf m) :
    wf (insert a v m) := by
  refine ⟨?_, fun c hc => (mem_insert hc).elim (fun e => e ▸ ⟨ha, hv⟩) (h.2 c)⟩
  have hs := h.1
  clear h
  induction m with
  | nil => simp [insert]
  | cons d rest ih =>
    obtain ⟨b, w⟩ := d
    obtain ⟨hd, hrest⟩ := List.pairwise_cons.mp hs
    unfold insert
    split
    · rename_i hab
      exact List.pairwise_cons.mpr ⟨fun c hc => (List.mem_cons.mp hc).elim (fun e => e ▸ hab)
        (fun hc => Nat.lt_trans hab (hd c hc)), hs⟩
    · split
      · rename_i hab
        subst hab
        exact List.pairwise_cons.mpr ⟨hd, hrest⟩
      · rename_i hlt hne
        exact List.pairwise_cons.mpr ⟨fun c hc => (mem_insert hc).elim
          (fun e => by subst e; simp only; omega) (hd c), ih hrest⟩

/-- A write keeps the canonical form. -/
theorem wf_write {m : Memory} {a : Nat} (v : Byte) (ha : a < 4096) (h : wf m) : wf (write m a v) := by
  unfold write
  split
  · exact wf_erase a h
  · rename_i hv
    exact wf_insert ha hv h

theorem wf_nil : wf [] := by simp [wf]

end Sys2Proof.Machine.Memory
end

