-- ==== Sys2Proof/Laws/State.lean ====
section
/-! SUPPORT. For each named update of the state, what it leaves in each field: the field it writes, and
every other field as it was. Generated uniformly; each holds by unfolding one record update. -/

namespace Sys2Proof.Machine.State

variable (s : State)

/-! ### setV -/

@[simp] theorem setV_mem (x : Reg) (b : Byte) : (s.setV x b).mem = s.mem := rfl
@[simp] theorem setV_v (x : Reg) (b : Byte) : (s.setV x b).v = s.v.set x.toNat b x.isLt := rfl
@[simp] theorem setV_i (x : Reg) (b : Byte) : (s.setV x b).i = s.i := rfl
@[simp] theorem setV_pc (x : Reg) (b : Byte) : (s.setV x b).pc = s.pc := rfl
@[simp] theorem setV_stack (x : Reg) (b : Byte) : (s.setV x b).stack = s.stack := rfl
@[simp] theorem setV_sp (x : Reg) (b : Byte) : (s.setV x b).sp = s.sp := rfl
@[simp] theorem setV_dt (x : Reg) (b : Byte) : (s.setV x b).dt = s.dt := rfl
@[simp] theorem setV_st (x : Reg) (b : Byte) : (s.setV x b).st = s.st := rfl
@[simp] theorem setV_key (x : Reg) (b : Byte) : (s.setV x b).key = s.key := rfl
@[simp] theorem setV_fb (x : Reg) (b : Byte) : (s.setV x b).fb = s.fb := rfl
@[simp] theorem setV_redraw (x : Reg) (b : Byte) : (s.setV x b).redraw = s.redraw := rfl
@[simp] theorem setV_wait (x : Reg) (b : Byte) : (s.setV x b).wait = s.wait := rfl
@[simp] theorem setV_waitKeys (x : Reg) (b : Byte) : (s.setV x b).waitKeys = s.waitKeys := rfl
@[simp] theorem setV_draws (x : Reg) (b : Byte) : (s.setV x b).draws = s.draws := rfl

/-! ### setI -/

@[simp] theorem setI_mem (w : Word) : (s.setI w).mem = s.mem := rfl
@[simp] theorem setI_v (w : Word) : (s.setI w).v = s.v := rfl
@[simp] theorem setI_i (w : Word) : (s.setI w).i = w := rfl
@[simp] theorem setI_pc (w : Word) : (s.setI w).pc = s.pc := rfl
@[simp] theorem setI_stack (w : Word) : (s.setI w).stack = s.stack := rfl
@[simp] theorem setI_sp (w : Word) : (s.setI w).sp = s.sp := rfl
@[simp] theorem setI_dt (w : Word) : (s.setI w).dt = s.dt := rfl
@[simp] theorem setI_st (w : Word) : (s.setI w).st = s.st := rfl
@[simp] theorem setI_key (w : Word) : (s.setI w).key = s.key := rfl
@[simp] theorem setI_fb (w : Word) : (s.setI w).fb = s.fb := rfl
@[simp] theorem setI_redraw (w : Word) : (s.setI w).redraw = s.redraw := rfl
@[simp] theorem setI_wait (w : Word) : (s.setI w).wait = s.wait := rfl
@[simp] theorem setI_waitKeys (w : Word) : (s.setI w).waitKeys = s.waitKeys := rfl
@[simp] theorem setI_draws (w : Word) : (s.setI w).draws = s.draws := rfl

/-! ### setPc -/

@[simp] theorem setPc_mem (w : Word) : (s.setPc w).mem = s.mem := rfl
@[simp] theorem setPc_v (w : Word) : (s.setPc w).v = s.v := rfl
@[simp] theorem setPc_i (w : Word) : (s.setPc w).i = s.i := rfl
@[simp] theorem setPc_pc (w : Word) : (s.setPc w).pc = w := rfl
@[simp] theorem setPc_stack (w : Word) : (s.setPc w).stack = s.stack := rfl
@[simp] theorem setPc_sp (w : Word) : (s.setPc w).sp = s.sp := rfl
@[simp] theorem setPc_dt (w : Word) : (s.setPc w).dt = s.dt := rfl
@[simp] theorem setPc_st (w : Word) : (s.setPc w).st = s.st := rfl
@[simp] theorem setPc_key (w : Word) : (s.setPc w).key = s.key := rfl
@[simp] theorem setPc_fb (w : Word) : (s.setPc w).fb = s.fb := rfl
@[simp] theorem setPc_redraw (w : Word) : (s.setPc w).redraw = s.redraw := rfl
@[simp] theorem setPc_wait (w : Word) : (s.setPc w).wait = s.wait := rfl
@[simp] theorem setPc_waitKeys (w : Word) : (s.setPc w).waitKeys = s.waitKeys := rfl
@[simp] theorem setPc_draws (w : Word) : (s.setPc w).draws = s.draws := rfl

/-! ### setDt -/

@[simp] theorem setDt_mem (b : Byte) : (s.setDt b).mem = s.mem := rfl
@[simp] theorem setDt_v (b : Byte) : (s.setDt b).v = s.v := rfl
@[simp] theorem setDt_i (b : Byte) : (s.setDt b).i = s.i := rfl
@[simp] theorem setDt_pc (b : Byte) : (s.setDt b).pc = s.pc := rfl
@[simp] theorem setDt_stack (b : Byte) : (s.setDt b).stack = s.stack := rfl
@[simp] theorem setDt_sp (b : Byte) : (s.setDt b).sp = s.sp := rfl
@[simp] theorem setDt_dt (b : Byte) : (s.setDt b).dt = b := rfl
@[simp] theorem setDt_st (b : Byte) : (s.setDt b).st = s.st := rfl
@[simp] theorem setDt_key (b : Byte) : (s.setDt b).key = s.key := rfl
@[simp] theorem setDt_fb (b : Byte) : (s.setDt b).fb = s.fb := rfl
@[simp] theorem setDt_redraw (b : Byte) : (s.setDt b).redraw = s.redraw := rfl
@[simp] theorem setDt_wait (b : Byte) : (s.setDt b).wait = s.wait := rfl
@[simp] theorem setDt_waitKeys (b : Byte) : (s.setDt b).waitKeys = s.waitKeys := rfl
@[simp] theorem setDt_draws (b : Byte) : (s.setDt b).draws = s.draws := rfl

/-! ### setSt -/

@[simp] theorem setSt_mem (b : Byte) : (s.setSt b).mem = s.mem := rfl
@[simp] theorem setSt_v (b : Byte) : (s.setSt b).v = s.v := rfl
@[simp] theorem setSt_i (b : Byte) : (s.setSt b).i = s.i := rfl
@[simp] theorem setSt_pc (b : Byte) : (s.setSt b).pc = s.pc := rfl
@[simp] theorem setSt_stack (b : Byte) : (s.setSt b).stack = s.stack := rfl
@[simp] theorem setSt_sp (b : Byte) : (s.setSt b).sp = s.sp := rfl
@[simp] theorem setSt_dt (b : Byte) : (s.setSt b).dt = s.dt := rfl
@[simp] theorem setSt_st (b : Byte) : (s.setSt b).st = b := rfl
@[simp] theorem setSt_key (b : Byte) : (s.setSt b).key = s.key := rfl
@[simp] theorem setSt_fb (b : Byte) : (s.setSt b).fb = s.fb := rfl
@[simp] theorem setSt_redraw (b : Byte) : (s.setSt b).redraw = s.redraw := rfl
@[simp] theorem setSt_wait (b : Byte) : (s.setSt b).wait = s.wait := rfl
@[simp] theorem setSt_waitKeys (b : Byte) : (s.setSt b).waitKeys = s.waitKeys := rfl
@[simp] theorem setSt_draws (b : Byte) : (s.setSt b).draws = s.draws := rfl

/-! ### setKeys -/

@[simp] theorem setKeys_mem (w : BitVec 16) : (s.setKeys w).mem = s.mem := rfl
@[simp] theorem setKeys_v (w : BitVec 16) : (s.setKeys w).v = s.v := rfl
@[simp] theorem setKeys_i (w : BitVec 16) : (s.setKeys w).i = s.i := rfl
@[simp] theorem setKeys_pc (w : BitVec 16) : (s.setKeys w).pc = s.pc := rfl
@[simp] theorem setKeys_stack (w : BitVec 16) : (s.setKeys w).stack = s.stack := rfl
@[simp] theorem setKeys_sp (w : BitVec 16) : (s.setKeys w).sp = s.sp := rfl
@[simp] theorem setKeys_dt (w : BitVec 16) : (s.setKeys w).dt = s.dt := rfl
@[simp] theorem setKeys_st (w : BitVec 16) : (s.setKeys w).st = s.st := rfl
@[simp] theorem setKeys_key (w : BitVec 16) : (s.setKeys w).key = w := rfl
@[simp] theorem setKeys_fb (w : BitVec 16) : (s.setKeys w).fb = s.fb := rfl
@[simp] theorem setKeys_redraw (w : BitVec 16) : (s.setKeys w).redraw = s.redraw := rfl
@[simp] theorem setKeys_wait (w : BitVec 16) : (s.setKeys w).wait = s.wait := rfl
@[simp] theorem setKeys_waitKeys (w : BitVec 16) : (s.setKeys w).waitKeys = s.waitKeys := rfl
@[simp] theorem setKeys_draws (w : BitVec 16) : (s.setKeys w).draws = s.draws := rfl

/-! ### setFb -/

@[simp] theorem setFb_mem (f : Framebuffer) : (s.setFb f).mem = s.mem := rfl
@[simp] theorem setFb_v (f : Framebuffer) : (s.setFb f).v = s.v := rfl
@[simp] theorem setFb_i (f : Framebuffer) : (s.setFb f).i = s.i := rfl
@[simp] theorem setFb_pc (f : Framebuffer) : (s.setFb f).pc = s.pc := rfl
@[simp] theorem setFb_stack (f : Framebuffer) : (s.setFb f).stack = s.stack := rfl
@[simp] theorem setFb_sp (f : Framebuffer) : (s.setFb f).sp = s.sp := rfl
@[simp] theorem setFb_dt (f : Framebuffer) : (s.setFb f).dt = s.dt := rfl
@[simp] theorem setFb_st (f : Framebuffer) : (s.setFb f).st = s.st := rfl
@[simp] theorem setFb_key (f : Framebuffer) : (s.setFb f).key = s.key := rfl
@[simp] theorem setFb_fb (f : Framebuffer) : (s.setFb f).fb = f := rfl
@[simp] theorem setFb_redraw (f : Framebuffer) : (s.setFb f).redraw = s.redraw := rfl
@[simp] theorem setFb_wait (f : Framebuffer) : (s.setFb f).wait = s.wait := rfl
@[simp] theorem setFb_waitKeys (f : Framebuffer) : (s.setFb f).waitKeys = s.waitKeys := rfl
@[simp] theorem setFb_draws (f : Framebuffer) : (s.setFb f).draws = s.draws := rfl

/-! ### setRedraw -/

@[simp] theorem setRedraw_mem (b : Bool) : (s.setRedraw b).mem = s.mem := rfl
@[simp] theorem setRedraw_v (b : Bool) : (s.setRedraw b).v = s.v := rfl
@[simp] theorem setRedraw_i (b : Bool) : (s.setRedraw b).i = s.i := rfl
@[simp] theorem setRedraw_pc (b : Bool) : (s.setRedraw b).pc = s.pc := rfl
@[simp] theorem setRedraw_stack (b : Bool) : (s.setRedraw b).stack = s.stack := rfl
@[simp] theorem setRedraw_sp (b : Bool) : (s.setRedraw b).sp = s.sp := rfl
@[simp] theorem setRedraw_dt (b : Bool) : (s.setRedraw b).dt = s.dt := rfl
@[simp] theorem setRedraw_st (b : Bool) : (s.setRedraw b).st = s.st := rfl
@[simp] theorem setRedraw_key (b : Bool) : (s.setRedraw b).key = s.key := rfl
@[simp] theorem setRedraw_fb (b : Bool) : (s.setRedraw b).fb = s.fb := rfl
@[simp] theorem setRedraw_redraw (b : Bool) : (s.setRedraw b).redraw = b := rfl
@[simp] theorem setRedraw_wait (b : Bool) : (s.setRedraw b).wait = s.wait := rfl
@[simp] theorem setRedraw_waitKeys (b : Bool) : (s.setRedraw b).waitKeys = s.waitKeys := rfl
@[simp] theorem setRedraw_draws (b : Bool) : (s.setRedraw b).draws = s.draws := rfl

/-! ### setWait -/

@[simp] theorem setWait_mem (w : Option Reg) (k : BitVec 16) : (s.setWait w k).mem = s.mem := rfl
@[simp] theorem setWait_v (w : Option Reg) (k : BitVec 16) : (s.setWait w k).v = s.v := rfl
@[simp] theorem setWait_i (w : Option Reg) (k : BitVec 16) : (s.setWait w k).i = s.i := rfl
@[simp] theorem setWait_pc (w : Option Reg) (k : BitVec 16) : (s.setWait w k).pc = s.pc := rfl
@[simp] theorem setWait_stack (w : Option Reg) (k : BitVec 16) : (s.setWait w k).stack = s.stack := rfl
@[simp] theorem setWait_sp (w : Option Reg) (k : BitVec 16) : (s.setWait w k).sp = s.sp := rfl
@[simp] theorem setWait_dt (w : Option Reg) (k : BitVec 16) : (s.setWait w k).dt = s.dt := rfl
@[simp] theorem setWait_st (w : Option Reg) (k : BitVec 16) : (s.setWait w k).st = s.st := rfl
@[simp] theorem setWait_key (w : Option Reg) (k : BitVec 16) : (s.setWait w k).key = s.key := rfl
@[simp] theorem setWait_fb (w : Option Reg) (k : BitVec 16) : (s.setWait w k).fb = s.fb := rfl
@[simp] theorem setWait_redraw (w : Option Reg) (k : BitVec 16) : (s.setWait w k).redraw = s.redraw := rfl
@[simp] theorem setWait_wait (w : Option Reg) (k : BitVec 16) : (s.setWait w k).wait = w := rfl
@[simp] theorem setWait_waitKeys (w : Option Reg) (k : BitVec 16) : (s.setWait w k).waitKeys = k := rfl
@[simp] theorem setWait_draws (w : Option Reg) (k : BitVec 16) : (s.setWait w k).draws = s.draws := rfl

/-! ### memWrite -/

@[simp] theorem memWrite_mem (a : Nat) (b : Byte) : (s.memWrite a b).mem = Memory.write s.mem (effAddr a) b := rfl
@[simp] theorem memWrite_v (a : Nat) (b : Byte) : (s.memWrite a b).v = s.v := rfl
@[simp] theorem memWrite_i (a : Nat) (b : Byte) : (s.memWrite a b).i = s.i := rfl
@[simp] theorem memWrite_pc (a : Nat) (b : Byte) : (s.memWrite a b).pc = s.pc := rfl
@[simp] theorem memWrite_stack (a : Nat) (b : Byte) : (s.memWrite a b).stack = s.stack := rfl
@[simp] theorem memWrite_sp (a : Nat) (b : Byte) : (s.memWrite a b).sp = s.sp := rfl
@[simp] theorem memWrite_dt (a : Nat) (b : Byte) : (s.memWrite a b).dt = s.dt := rfl
@[simp] theorem memWrite_st (a : Nat) (b : Byte) : (s.memWrite a b).st = s.st := rfl
@[simp] theorem memWrite_key (a : Nat) (b : Byte) : (s.memWrite a b).key = s.key := rfl
@[simp] theorem memWrite_fb (a : Nat) (b : Byte) : (s.memWrite a b).fb = s.fb := rfl
@[simp] theorem memWrite_redraw (a : Nat) (b : Byte) : (s.memWrite a b).redraw = s.redraw := rfl
@[simp] theorem memWrite_wait (a : Nat) (b : Byte) : (s.memWrite a b).wait = s.wait := rfl
@[simp] theorem memWrite_waitKeys (a : Nat) (b : Byte) : (s.memWrite a b).waitKeys = s.waitKeys := rfl
@[simp] theorem memWrite_draws (a : Nat) (b : Byte) : (s.memWrite a b).draws = s.draws := rfl

/-! ### advance -/

@[simp] theorem advance_mem : (s.advance).mem = s.mem := rfl
@[simp] theorem advance_v : (s.advance).v = s.v := rfl
@[simp] theorem advance_i : (s.advance).i = s.i := rfl
@[simp] theorem advance_pc : (s.advance).pc = s.pc + 2 := rfl
@[simp] theorem advance_stack : (s.advance).stack = s.stack := rfl
@[simp] theorem advance_sp : (s.advance).sp = s.sp := rfl
@[simp] theorem advance_dt : (s.advance).dt = s.dt := rfl
@[simp] theorem advance_st : (s.advance).st = s.st := rfl
@[simp] theorem advance_key : (s.advance).key = s.key := rfl
@[simp] theorem advance_fb : (s.advance).fb = s.fb := rfl
@[simp] theorem advance_redraw : (s.advance).redraw = s.redraw := rfl
@[simp] theorem advance_wait : (s.advance).wait = s.wait := rfl
@[simp] theorem advance_waitKeys : (s.advance).waitKeys = s.waitKeys := rfl
@[simp] theorem advance_draws : (s.advance).draws = s.draws := rfl

/-! ### setFlag -/

@[simp] theorem setFlag_mem (f : Bool) : (s.setFlag f).mem = s.mem := rfl
@[simp] theorem setFlag_v (f : Bool) : (s.setFlag f).v = s.v.set 15 (flagByte f) := rfl
@[simp] theorem setFlag_i (f : Bool) : (s.setFlag f).i = s.i := rfl
@[simp] theorem setFlag_pc (f : Bool) : (s.setFlag f).pc = s.pc := rfl
@[simp] theorem setFlag_stack (f : Bool) : (s.setFlag f).stack = s.stack := rfl
@[simp] theorem setFlag_sp (f : Bool) : (s.setFlag f).sp = s.sp := rfl
@[simp] theorem setFlag_dt (f : Bool) : (s.setFlag f).dt = s.dt := rfl
@[simp] theorem setFlag_st (f : Bool) : (s.setFlag f).st = s.st := rfl
@[simp] theorem setFlag_key (f : Bool) : (s.setFlag f).key = s.key := rfl
@[simp] theorem setFlag_fb (f : Bool) : (s.setFlag f).fb = s.fb := rfl
@[simp] theorem setFlag_redraw (f : Bool) : (s.setFlag f).redraw = s.redraw := rfl
@[simp] theorem setFlag_wait (f : Bool) : (s.setFlag f).wait = s.wait := rfl
@[simp] theorem setFlag_waitKeys (f : Bool) : (s.setFlag f).waitKeys = s.waitKeys := rfl
@[simp] theorem setFlag_draws (f : Bool) : (s.setFlag f).draws = s.draws := rfl

/-! ### setResultAndFlag -/

@[simp] theorem setResultAndFlag_mem (x : Reg) (r : Byte) (f : Bool) : (s.setResultAndFlag x r f).mem = s.mem := rfl
@[simp] theorem setResultAndFlag_v (x : Reg) (r : Byte) (f : Bool) : (s.setResultAndFlag x r f).v = (s.v.set x.toNat r x.isLt).set 15 (flagByte f) := rfl
@[simp] theorem setResultAndFlag_i (x : Reg) (r : Byte) (f : Bool) : (s.setResultAndFlag x r f).i = s.i := rfl
@[simp] theorem setResultAndFlag_pc (x : Reg) (r : Byte) (f : Bool) : (s.setResultAndFlag x r f).pc = s.pc := rfl
@[simp] theorem setResultAndFlag_stack (x : Reg) (r : Byte) (f : Bool) : (s.setResultAndFlag x r f).stack = s.stack := rfl
@[simp] theorem setResultAndFlag_sp (x : Reg) (r : Byte) (f : Bool) : (s.setResultAndFlag x r f).sp = s.sp := rfl
@[simp] theorem setResultAndFlag_dt (x : Reg) (r : Byte) (f : Bool) : (s.setResultAndFlag x r f).dt = s.dt := rfl
@[simp] theorem setResultAndFlag_st (x : Reg) (r : Byte) (f : Bool) : (s.setResultAndFlag x r f).st = s.st := rfl
@[simp] theorem setResultAndFlag_key (x : Reg) (r : Byte) (f : Bool) : (s.setResultAndFlag x r f).key = s.key := rfl
@[simp] theorem setResultAndFlag_fb (x : Reg) (r : Byte) (f : Bool) : (s.setResultAndFlag x r f).fb = s.fb := rfl
@[simp] theorem setResultAndFlag_redraw (x : Reg) (r : Byte) (f : Bool) : (s.setResultAndFlag x r f).redraw = s.redraw := rfl
@[simp] theorem setResultAndFlag_wait (x : Reg) (r : Byte) (f : Bool) : (s.setResultAndFlag x r f).wait = s.wait := rfl
@[simp] theorem setResultAndFlag_waitKeys (x : Reg) (r : Byte) (f : Bool) : (s.setResultAndFlag x r f).waitKeys = s.waitKeys := rfl
@[simp] theorem setResultAndFlag_draws (x : Reg) (r : Byte) (f : Bool) : (s.setResultAndFlag x r f).draws = s.draws := rfl

end Sys2Proof.Machine.State
end

