-- ==== Sys2Proof/Laws/Ops.lean ====
section
/-! SUPPORT. One lemma for each shared operation of Machine/: what it can do, so that proofs about
instructions cite it and do not unfold it. -/

namespace Sys2Proof.Machine

namespace State

variable (s : State)

/-! ### Memory accesses -/

/-- Only MEM matters to a read. -/
theorem memRead_congr {s t : State} (h : s.mem = t.mem) (a : Nat) : s.memRead a = t.memRead a := by
  simp only [memRead, h]

/-- A read sees the last write to its effective address, and is blind to every other write. -/
theorem memRead_memWrite (a b : Nat) (v : Byte) :
    (s.memWrite a v).memRead b = if b % 4096 = a % 4096 then v else s.memRead b := by
  simp only [memRead, memWrite, Memory.read_write, effAddr]

/-- Addresses that agree modulo 4096 read the same byte. -/
theorem memRead_mod (a : Nat) : s.memRead (a % 4096) = s.memRead a := by
  simp only [memRead, effAddr, Nat.mod_mod]

/-- The reset contents are what the state after reset reads. -/
@[simp] theorem memRead_reset (a : Nat) : State.reset.memRead a = resetByte (a % 4096) := rfl

/-- A write through the state keeps memory canonical. -/
theorem memWrite_wf {s : State} (a : Nat) (v : Byte) (h : Memory.wf s.mem) :
    Memory.wf (s.memWrite a v).mem :=
  Memory.wf_write v (Nat.mod_lt _ (by decide)) h

@[simp] theorem memRead_setV (x : Reg) (b : Byte) (a : Nat) : (s.setV x b).memRead a = s.memRead a := rfl
@[simp] theorem memRead_setI (w : Word) (a : Nat) : (s.setI w).memRead a = s.memRead a := rfl
@[simp] theorem memRead_setPc (w : Word) (a : Nat) : (s.setPc w).memRead a = s.memRead a := rfl
@[simp] theorem memRead_setFb (f : Framebuffer) (a : Nat) : (s.setFb f).memRead a = s.memRead a := rfl
@[simp] theorem memRead_setRedraw (b : Bool) (a : Nat) : (s.setRedraw b).memRead a = s.memRead a := rfl
@[simp] theorem memRead_setFlag (f : Bool) (a : Nat) : (s.setFlag f).memRead a = s.memRead a := rfl
@[simp] theorem memRead_advance (a : Nat) : s.advance.memRead a = s.memRead a := rfl

/-! ### Registers -/

/-- A write to a register sets it and no other. -/
@[simp] theorem getV_setV (x y : Reg) (b : Byte) :
    (s.setV x b).getV y = if y = x then b else s.getV y := by
  simp only [getV, setV, Vector.getElem_set, ← BitVec.toNat_eq, eq_comm]

/-- Registers are their values: two register files that read alike are one. -/
theorem v_ext {s t : State} (h : ∀ x, s.getV x = t.getV x) : s.v = t.v := by
  apply Vector.ext
  intro k hk
  have := h (BitVec.ofNat 4 k)
  simpa [getV, Nat.mod_eq_of_lt hk] using this

@[simp] theorem getV_setI (w : Word) (x : Reg) : (s.setI w).getV x = s.getV x := rfl
@[simp] theorem getV_setPc (w : Word) (x : Reg) : (s.setPc w).getV x = s.getV x := rfl
@[simp] theorem getV_setFb (f : Framebuffer) (x : Reg) : (s.setFb f).getV x = s.getV x := rfl
@[simp] theorem getV_setRedraw (b : Bool) (x : Reg) : (s.setRedraw b).getV x = s.getV x := rfl
@[simp] theorem getV_setWait (w : Option Reg) (k : BitVec 16) (x : Reg) :
    (s.setWait w k).getV x = s.getV x := rfl
@[simp] theorem getV_memWrite (a : Nat) (b : Byte) (x : Reg) : (s.memWrite a b).getV x = s.getV x := rfl
@[simp] theorem getV_advance (x : Reg) : s.advance.getV x = s.getV x := rfl

/-- VF is the flag; every other register is untouched. -/
@[simp] theorem getV_setFlag (f : Bool) (x : Reg) :
    (s.setFlag f).getV x = if x = vF then flagByte f else s.getV x := getV_setV ..

/-- The flag remains in VF even when VF is the destination; else the result is in `V[x]`. -/
theorem getV_setResultAndFlag (x y : Reg) (r : Byte) (f : Bool) :
    (s.setResultAndFlag x r f).getV y = if y = vF then flagByte f else if y = x then r else s.getV y := by
  rw [setResultAndFlag, getV_setFlag, getV_setV]

@[simp] theorem getV_reset (x : Reg) : State.reset.getV x = 0 := by
  simp [getV, State.reset]

/-! ### The next PC -/

/-- A conditional skip only writes PC. -/
theorem skipIf_eq (c : Bool) : s.skipIf c = s.setPc (if c then s.pc + 4 else s.pc + 2) := by
  cases c <;> rfl

end State

/-! ### The stack -/

theorem callTo_of_lt {s : State} (target : Word) (h : s.sp.val < 16) :
    callTo target s = .next { s with
      stack := s.stack.set s.sp.val (s.pc + 2) h, sp := ⟨s.sp.val + 1, Nat.succ_lt_succ h⟩, pc := target } := by
  simp [callTo, h]

theorem callTo_of_full {s : State} (target : Word) (h : s.sp.val = 16) :
    callTo target s = .fault (.stackOverflow s.pc) := by
  simp [callTo, h, raise]

theorem returnToCaller_of_empty {s : State} (h : s.sp.val = 0) :
    returnToCaller s = .fault (.stackUnderflow s.pc) := by
  simp [returnToCaller, h, raise]

theorem returnToCaller_of_ne {s : State} (h : s.sp.val ≠ 0) :
    returnToCaller s = .next { s with
      sp := ⟨s.sp.val - 1, by omega⟩, pc := s.stack[s.sp.val - 1]'(by omega) } := by
  simp [returnToCaller, h]

/-! ### Register ranges -/

theorem mem_regsUpTo {x k : Reg} : k ∈ regsUpTo x ↔ k.toNat ≤ x.toNat := by
  simp only [regsUpTo, List.mem_map, List.mem_range]
  constructor
  · rintro ⟨n, hn, rfl⟩
    simp only [BitVec.toNat_ofNat]
    omega
  · intro h
    exact ⟨k.toNat, by omega, by simp⟩

/-- Storing registers writes MEM alone. -/
theorem storeRegs_frame (ks : List Reg) (s : State) :
    storeRegs ks s = { s with mem := (storeRegs ks s).mem } := by
  induction ks generalizing s with
  | nil => rfl
  | cons k ks ih =>
    have h := ih (s.memWrite (s.indexAddr k.toNat) (s.getV k))
    simp only [storeRegs, List.foldl_cons] at h ⊢
    exact h

/-- Loading registers writes V alone. -/
theorem loadRegs_frame (ks : List Reg) (s : State) :
    loadRegs ks s = { s with v := (loadRegs ks s).v } := by
  induction ks generalizing s with
  | nil => rfl
  | cons k ks ih =>
    have h := ih (s.setV k (s.memRead (s.indexAddr k.toNat)))
    simp only [loadRegs, List.foldl_cons] at h ⊢
    exact h

theorem storeRegs_wf (ks : List Reg) {s : State} (h : Memory.wf s.mem) :
    Memory.wf (storeRegs ks s).mem := by
  induction ks generalizing s with
  | nil => exact h
  | cons k ks ih => exact ih (State.memWrite_wf _ _ h)

theorem storeDigits_wf (b : Byte) {s : State} (h : Memory.wf s.mem) :
    Memory.wf (storeDigits b s).mem :=
  State.memWrite_wf _ _ (State.memWrite_wf _ _ (State.memWrite_wf _ _ h))

/-- Storing bytes writes MEM alone. -/
theorem storeBytes_frame (bs : List Byte) (a : Nat) (s : State) :
    storeBytes bs a s = { s with mem := (storeBytes bs a s).mem } := by
  induction bs generalizing a s with
  | nil => rfl
  | cons b bs ih => exact ih (a + 1) (s.memWrite a b)

theorem storeBytes_wf (bs : List Byte) (a : Nat) {s : State} (h : Memory.wf s.mem) :
    Memory.wf (storeBytes bs a s).mem := by
  induction bs generalizing a s with
  | nil => exact h
  | cons b bs ih => exact ih (a + 1) (State.memWrite_wf _ _ h)

/-! ### Fields after storing or loading registers, and after storing bytes -/

@[simp] theorem storeRegs_v (ks : List Reg) (s : State) : (storeRegs ks s).v = s.v := by
  rw [storeRegs_frame]
@[simp] theorem storeRegs_i (ks : List Reg) (s : State) : (storeRegs ks s).i = s.i := by
  rw [storeRegs_frame]
@[simp] theorem storeRegs_pc (ks : List Reg) (s : State) : (storeRegs ks s).pc = s.pc := by
  rw [storeRegs_frame]
@[simp] theorem storeRegs_stack (ks : List Reg) (s : State) : (storeRegs ks s).stack = s.stack := by
  rw [storeRegs_frame]
@[simp] theorem storeRegs_sp (ks : List Reg) (s : State) : (storeRegs ks s).sp = s.sp := by
  rw [storeRegs_frame]
@[simp] theorem storeRegs_dt (ks : List Reg) (s : State) : (storeRegs ks s).dt = s.dt := by
  rw [storeRegs_frame]
@[simp] theorem storeRegs_st (ks : List Reg) (s : State) : (storeRegs ks s).st = s.st := by
  rw [storeRegs_frame]
@[simp] theorem storeRegs_key (ks : List Reg) (s : State) : (storeRegs ks s).key = s.key := by
  rw [storeRegs_frame]
@[simp] theorem storeRegs_fb (ks : List Reg) (s : State) : (storeRegs ks s).fb = s.fb := by
  rw [storeRegs_frame]
@[simp] theorem storeRegs_redraw (ks : List Reg) (s : State) : (storeRegs ks s).redraw = s.redraw := by
  rw [storeRegs_frame]
@[simp] theorem storeRegs_wait (ks : List Reg) (s : State) : (storeRegs ks s).wait = s.wait := by
  rw [storeRegs_frame]
@[simp] theorem storeRegs_waitKeys (ks : List Reg) (s : State) : (storeRegs ks s).waitKeys = s.waitKeys := by
  rw [storeRegs_frame]
@[simp] theorem storeRegs_draws (ks : List Reg) (s : State) : (storeRegs ks s).draws = s.draws := by
  rw [storeRegs_frame]
@[simp] theorem loadRegs_mem (ks : List Reg) (s : State) : (loadRegs ks s).mem = s.mem := by
  rw [loadRegs_frame]
@[simp] theorem loadRegs_i (ks : List Reg) (s : State) : (loadRegs ks s).i = s.i := by
  rw [loadRegs_frame]
@[simp] theorem loadRegs_pc (ks : List Reg) (s : State) : (loadRegs ks s).pc = s.pc := by
  rw [loadRegs_frame]
@[simp] theorem loadRegs_stack (ks : List Reg) (s : State) : (loadRegs ks s).stack = s.stack := by
  rw [loadRegs_frame]
@[simp] theorem loadRegs_sp (ks : List Reg) (s : State) : (loadRegs ks s).sp = s.sp := by
  rw [loadRegs_frame]
@[simp] theorem loadRegs_dt (ks : List Reg) (s : State) : (loadRegs ks s).dt = s.dt := by
  rw [loadRegs_frame]
@[simp] theorem loadRegs_st (ks : List Reg) (s : State) : (loadRegs ks s).st = s.st := by
  rw [loadRegs_frame]
@[simp] theorem loadRegs_key (ks : List Reg) (s : State) : (loadRegs ks s).key = s.key := by
  rw [loadRegs_frame]
@[simp] theorem loadRegs_fb (ks : List Reg) (s : State) : (loadRegs ks s).fb = s.fb := by
  rw [loadRegs_frame]
@[simp] theorem loadRegs_redraw (ks : List Reg) (s : State) : (loadRegs ks s).redraw = s.redraw := by
  rw [loadRegs_frame]
@[simp] theorem loadRegs_wait (ks : List Reg) (s : State) : (loadRegs ks s).wait = s.wait := by
  rw [loadRegs_frame]
@[simp] theorem loadRegs_waitKeys (ks : List Reg) (s : State) : (loadRegs ks s).waitKeys = s.waitKeys := by
  rw [loadRegs_frame]
@[simp] theorem loadRegs_draws (ks : List Reg) (s : State) : (loadRegs ks s).draws = s.draws := by
  rw [loadRegs_frame]
@[simp] theorem storeBytes_v (bs : List Byte) (a : Nat) (s : State) : (storeBytes bs a s).v = s.v := by
  rw [storeBytes_frame]
@[simp] theorem storeBytes_i (bs : List Byte) (a : Nat) (s : State) : (storeBytes bs a s).i = s.i := by
  rw [storeBytes_frame]
@[simp] theorem storeBytes_pc (bs : List Byte) (a : Nat) (s : State) : (storeBytes bs a s).pc = s.pc := by
  rw [storeBytes_frame]
@[simp] theorem storeBytes_stack (bs : List Byte) (a : Nat) (s : State) : (storeBytes bs a s).stack = s.stack := by
  rw [storeBytes_frame]
@[simp] theorem storeBytes_sp (bs : List Byte) (a : Nat) (s : State) : (storeBytes bs a s).sp = s.sp := by
  rw [storeBytes_frame]
@[simp] theorem storeBytes_dt (bs : List Byte) (a : Nat) (s : State) : (storeBytes bs a s).dt = s.dt := by
  rw [storeBytes_frame]
@[simp] theorem storeBytes_st (bs : List Byte) (a : Nat) (s : State) : (storeBytes bs a s).st = s.st := by
  rw [storeBytes_frame]
@[simp] theorem storeBytes_key (bs : List Byte) (a : Nat) (s : State) : (storeBytes bs a s).key = s.key := by
  rw [storeBytes_frame]
@[simp] theorem storeBytes_fb (bs : List Byte) (a : Nat) (s : State) : (storeBytes bs a s).fb = s.fb := by
  rw [storeBytes_frame]
@[simp] theorem storeBytes_redraw (bs : List Byte) (a : Nat) (s : State) : (storeBytes bs a s).redraw = s.redraw := by
  rw [storeBytes_frame]
@[simp] theorem storeBytes_wait (bs : List Byte) (a : Nat) (s : State) : (storeBytes bs a s).wait = s.wait := by
  rw [storeBytes_frame]
@[simp] theorem storeBytes_waitKeys (bs : List Byte) (a : Nat) (s : State) : (storeBytes bs a s).waitKeys = s.waitKeys := by
  rw [storeBytes_frame]
@[simp] theorem storeBytes_draws (bs : List Byte) (a : Nat) (s : State) : (storeBytes bs a s).draws = s.draws := by
  rw [storeBytes_frame]

/-! ### The keypad -/

/-- The least key of a vector is set in it, below 16, and no lower key is set. -/
theorem leastKey_eq_some {ks : BitVec 16} {k : Nat} (h : leastKey ks = some k) :
    ks.getLsbD k = true ∧ k < 16 ∧ ∀ j < k, ks.getLsbD j = false := by
  obtain ⟨hk, hmem, hlow⟩ := List.find?_range_eq_some.mp h
  exact ⟨hk, List.mem_range.mp hmem, fun j hj => by simpa using hlow j hj⟩

/-- A vector has no least key exactly when it is zero. -/
theorem leastKey_eq_none {ks : BitVec 16} : leastKey ks = none ↔ ks = 0 := by
  simp only [leastKey, List.find?_eq_none, List.mem_range]
  constructor
  · intro h
    apply BitVec.eq_of_getLsbD_eq
    intro k hk
    simpa using h k hk
  · rintro rfl k _
    simp

/-- What the await logic can do: complete with the least new key, or go on waiting. -/
theorem awaitKey_cases (r : Reg) (s : State) :
    (∃ k, leastKey s.newKeys = some k ∧
      awaitKey r s = ((s.setV r (BitVec.ofNat 8 k)).setWait none 0).advance) ∨
    (s.newKeys = 0 ∧ awaitKey r s = s.setWait (some r) (s.waitKeys &&& s.key)) := by
  unfold awaitKey
  cases h : leastKey s.newKeys with
  | some k => exact .inl ⟨k, rfl, rfl⟩
  | none => exact .inr ⟨leastKey_eq_none.mp h, rfl⟩

/-! ### The framebuffer -/

/-- Toggling a cell of the framebuffer inverts it and no other. -/
theorem pixel_togglePixel (fb : Framebuffer) {x y : Nat} (hx : x < 64) (hy : y < 32) (x' y' : Nat) :
    pixel (togglePixel fb x y) x' y' =
      if x' = x ∧ y' = y then !pixel fb x y else pixel fb x' y' := by
  by_cases hy' : y' < 32
  · by_cases hyy : y' = y
    · subst hyy
      by_cases hxx : x' = x
      · subst hxx
        simp [pixel, togglePixel, hy, hx]
      · by_cases hx' : x' < 64
        · simp only [pixel, togglePixel, hy, dite_true, Vector.getElem_set_self, BitVec.getLsbD_xor,
            BitVec.getLsbD_shiftLeft, hx', hxx, false_and, if_false, decide_true, Bool.true_and]
          rcases Nat.lt_or_gt_of_ne hxx with h | h
          · simp [h]
          · simp [Nat.not_lt.mpr (Nat.le_of_lt h), Nat.sub_ne_zero_of_lt h]
        · simp [pixel, togglePixel, hy, hxx, BitVec.getLsbD_of_ge _ _ (Nat.not_lt.mp hx')]
    · simp [pixel, togglePixel, hy, hy', hyy, Vector.getElem_set_ne _ _ (Ne.symm hyy)]
  · have hyy : y' ≠ y := by omega
    simp [pixel, hy', hyy]

/-- A raw position falls on a cell inside the framebuffer, or on none. -/
theorem cellAt_bounds {policy : EdgePolicy} {px py x y : Nat} (h : cellAt policy px py = some (x, y)) :
    x < 64 ∧ y < 32 := by
  unfold cellAt at h
  split at h
  · rename_i hin
    simp only [Option.some.injEq, Prod.mk.injEq] at h
    omega
  · cases policy
    · simp only [Option.some.injEq, Prod.mk.injEq] at h
      omega
    · simp at h

/-- Two framebuffers with the same cells are one. -/
theorem framebuffer_ext {f g : Framebuffer} (h : ∀ x y, pixel f x y = pixel g x y) : f = g := by
  apply Vector.ext
  intro y hy
  apply BitVec.eq_of_getLsbD_eq
  intro x _
  simpa [pixel, hy] using h x y

/-- `DRW` writes V, FB, REDRAW and PC alone. -/
theorem drawAt_frame (policy : EdgePolicy) (x y : Reg) (n : Nibble) (s : State) :
    drawAt policy x y n s = { s with
      v := (drawAt policy x y n s).v, fb := (drawAt policy x y n s).fb, redraw := true, pc := s.pc + 2 } :=
  rfl

end Sys2Proof.Machine
end

