-- ==== Sys2Proof/Laws/PerInstr.lean ====
section
/-! SUPPORT. A statement about every instruction as syntax, one lemma for each constructor: its opcode
carries the fixed digits of its row (spec/30_encoding.md R65, columns mask and match). -/

namespace Sys2Proof.Laws.FixedDigits

/-- The opcode of the instruction has the digits its row fixes. -/
def Statement (i : Instr) : Prop := encodeWord i &&& (fixedDigits i).mask = (fixedDigits i).value

theorem cls : Statement .cls := rfl
theorem ret : Statement .ret := rfl
theorem jp (nnn : Addr) : Statement (.jp nnn) := by
  simp only [Statement, encodeWord, fixedDigits, wordA_eq_wordR, wordR_and_F000]
  decide
theorem call (nnn : Addr) : Statement (.call nnn) := by
  simp only [Statement, encodeWord, fixedDigits, wordA_eq_wordR, wordR_and_F000]
  decide
theorem seImm (x : Reg) (nn : Byte) : Statement (.seImm x nn) := by
  simp only [Statement, encodeWord, fixedDigits, wordI_eq_wordR, wordR_and_F000]
  decide
theorem sneImm (x : Reg) (nn : Byte) : Statement (.sneImm x nn) := by
  simp only [Statement, encodeWord, fixedDigits, wordI_eq_wordR, wordR_and_F000]
  decide
theorem seReg (x y : Reg) : Statement (.seReg x y) := by
  simp only [Statement, encodeWord, fixedDigits, wordR_and_F00F]
  decide
theorem ldImm (x : Reg) (nn : Byte) : Statement (.ldImm x nn) := by
  simp only [Statement, encodeWord, fixedDigits, wordI_eq_wordR, wordR_and_F000]
  decide
theorem addImm (x : Reg) (nn : Byte) : Statement (.addImm x nn) := by
  simp only [Statement, encodeWord, fixedDigits, wordI_eq_wordR, wordR_and_F000]
  decide
theorem ldReg (x y : Reg) : Statement (.ldReg x y) := by
  simp only [Statement, encodeWord, fixedDigits, wordR_and_F00F]
  decide
theorem orReg (x y : Reg) : Statement (.orReg x y) := by
  simp only [Statement, encodeWord, fixedDigits, wordR_and_F00F]
  decide
theorem andReg (x y : Reg) : Statement (.andReg x y) := by
  simp only [Statement, encodeWord, fixedDigits, wordR_and_F00F]
  decide
theorem xorReg (x y : Reg) : Statement (.xorReg x y) := by
  simp only [Statement, encodeWord, fixedDigits, wordR_and_F00F]
  decide
theorem addReg (x y : Reg) : Statement (.addReg x y) := by
  simp only [Statement, encodeWord, fixedDigits, wordR_and_F00F]
  decide
theorem subReg (x y : Reg) : Statement (.subReg x y) := by
  simp only [Statement, encodeWord, fixedDigits, wordR_and_F00F]
  decide
theorem shr (x y : Reg) : Statement (.shr x y) := by
  simp only [Statement, encodeWord, fixedDigits, wordR_and_F00F]
  decide
theorem subnReg (x y : Reg) : Statement (.subnReg x y) := by
  simp only [Statement, encodeWord, fixedDigits, wordR_and_F00F]
  decide
theorem shl (x y : Reg) : Statement (.shl x y) := by
  simp only [Statement, encodeWord, fixedDigits, wordR_and_F00F]
  decide
theorem sneReg (x y : Reg) : Statement (.sneReg x y) := by
  simp only [Statement, encodeWord, fixedDigits, wordR_and_F00F]
  decide
theorem ldI (nnn : Addr) : Statement (.ldI nnn) := by
  simp only [Statement, encodeWord, fixedDigits, wordA_eq_wordR, wordR_and_F000]
  decide
theorem jpV0 (nnn : Addr) : Statement (.jpV0 nnn) := by
  simp only [Statement, encodeWord, fixedDigits, wordA_eq_wordR, wordR_and_F000]
  decide
theorem rnd (x : Reg) (nn : Byte) : Statement (.rnd x nn) := by
  simp only [Statement, encodeWord, fixedDigits, wordI_eq_wordR, wordR_and_F000]
  decide
theorem drw (x y : Reg) (n : Nibble) : Statement (.drw x y n) := by
  simp only [Statement, encodeWord, fixedDigits, wordR_and_F000]
  decide
theorem skp (x : Reg) : Statement (.skp x) := by
  simp only [Statement, encodeWord, fixedDigits, wordI_eq_wordR, wordR_and_F0FF]
  decide
theorem sknp (x : Reg) : Statement (.sknp x) := by
  simp only [Statement, encodeWord, fixedDigits, wordI_eq_wordR, wordR_and_F0FF]
  decide
theorem ldVxDt (x : Reg) : Statement (.ldVxDt x) := by
  simp only [Statement, encodeWord, fixedDigits, wordI_eq_wordR, wordR_and_F0FF]
  decide
theorem ldVxK (x : Reg) : Statement (.ldVxK x) := by
  simp only [Statement, encodeWord, fixedDigits, wordI_eq_wordR, wordR_and_F0FF]
  decide
theorem ldDtVx (x : Reg) : Statement (.ldDtVx x) := by
  simp only [Statement, encodeWord, fixedDigits, wordI_eq_wordR, wordR_and_F0FF]
  decide
theorem ldStVx (x : Reg) : Statement (.ldStVx x) := by
  simp only [Statement, encodeWord, fixedDigits, wordI_eq_wordR, wordR_and_F0FF]
  decide
theorem addI (x : Reg) : Statement (.addI x) := by
  simp only [Statement, encodeWord, fixedDigits, wordI_eq_wordR, wordR_and_F0FF]
  decide
theorem ldF (x : Reg) : Statement (.ldF x) := by
  simp only [Statement, encodeWord, fixedDigits, wordI_eq_wordR, wordR_and_F0FF]
  decide
theorem ldB (x : Reg) : Statement (.ldB x) := by
  simp only [Statement, encodeWord, fixedDigits, wordI_eq_wordR, wordR_and_F0FF]
  decide
theorem ldMemVx (x : Reg) : Statement (.ldMemVx x) := by
  simp only [Statement, encodeWord, fixedDigits, wordI_eq_wordR, wordR_and_F0FF]
  decide
theorem ldVxMem (x : Reg) : Statement (.ldVxMem x) := by
  simp only [Statement, encodeWord, fixedDigits, wordI_eq_wordR, wordR_and_F0FF]
  decide

end Sys2Proof.Laws.FixedDigits
end

