-- ==== Sys2Proof/Laws/Step.lean ====
section
/-! SUPPORT. What a step can do, said once (spec/30_encoding.md R60), and the next PC in the numbers of
the spec (spec/40_flow.md R107). -/

namespace Sys2Proof.Machine

/-- A waiting core performs the await logic. -/
theorem step_of_waiting {s : State} {r : Reg} (h : s.wait = some r) : step s = .next (awaitKey r s) := by
  simp only [step, h]

/-- A core that does not wait runs the legal word at PC. -/
theorem step_of_legal {s : State} {i : Instr} (h : s.wait = none) (hd : decodeWord s.fetch = .ok i) :
    step s = exec i s := by
  simp only [step, h, hd]

/-- A core that does not wait raises `DecodeError` at an illegal word. -/
theorem step_of_illegal {s : State} {e : Reject} (h : s.wait = none) (hd : decodeWord s.fetch = .error e) :
    step s = .fault (.decodeError s.fetch s.pc) := by
  simp only [step, h, hd, raise]

/-- The three things a step can do. -/
theorem step_cases (s : State) :
    (∃ r, s.wait = some r ∧ step s = .next (awaitKey r s)) ∨
    (∃ i, s.wait = none ∧ decodeWord s.fetch = .ok i ∧ step s = exec i s) ∨
    (∃ e, s.wait = none ∧ decodeWord s.fetch = .error e ∧ step s = .fault (.decodeError s.fetch s.pc)) := by
  cases hw : s.wait with
  | some r => exact .inl ⟨r, rfl, step_of_waiting hw⟩
  | none =>
    cases hd : decodeWord s.fetch with
    | ok i => exact .inr (.inl ⟨i, rfl, rfl, step_of_legal hw hd⟩)
    | error e => exact .inr (.inr ⟨e, rfl, rfl, step_of_illegal hw hd⟩)

theorem State.pcPlus_eq (s : State) (n : Nat) : s.pcPlus n = s.pc + BitVec.ofNat 16 n := by
  apply BitVec.eq_of_toNat_eq
  simp [State.pcPlus, BitVec.toNat_add]

theorem State.advance_eq (s : State) : s.advance = { s with pc := s.pcPlus 2 } := by
  rw [State.pcPlus_eq]
  rfl

theorem State.skipIf_eq_pcPlus (s : State) (c : Bool) :
    s.skipIf c = { s with pc := if c then s.pcPlus 4 else s.pcPlus 2 } := by
  rw [State.pcPlus_eq, State.pcPlus_eq]
  cases c <;> rfl

theorem zextAddr_eq (nnn : Addr) : zextAddr nnn = BitVec.ofNat 16 nnn.toNat :=
  BitVec.eq_of_toNat_eq (by simp [zextAddr])

theorem zextByte_eq (b : Byte) : zextByte b = BitVec.ofNat 16 b.toNat :=
  BitVec.eq_of_toNat_eq (by simp [zextByte])

theorem lowNibble_eq (b : Byte) : lowNibble b = b.toNat % 16 := by
  have h := Nat.and_two_pow_sub_one_eq_mod b.toNat 4
  simpa [lowNibble] using h

end Sys2Proof.Machine
end

