-- ==== Sys2Proof/WellFormed.lean ====
section
/-! DEFINITION. Which terms of the syntax the core accepts. A term of `Instr` holds each operand at
the width of its field (spec/30_encoding.md R64) and each of the 34 instructions accepts every
value of its fields (R66: the legal rows have no illegal operand), so instructions need no check.
What can be ill-formed is what the host hands the core: a program longer than the memory it is
loaded into, and a key index outside the keypad (spec/70_reset_and_hazards.md R204,
spec/60_exceptions.md R185). -/

namespace Sys2Proof

/-- A program fits the memory from 0x200: at most 3584 bytes (R4 `MAX_PROGRAM`, R203). -/
def programWf (bytes : List Byte) : Bool := decide (bytes.length ≤ 3584)

/-- A key index names a key of the keypad (R4 `NKEYS`, R184). -/
def keyIndexWf (index : Nat) : Bool := decide (index < 16)

/-- A transaction the core accepts whatever its state: only `load` and `set_key` have inputs that can
be refused (R170). -/
def Transaction.wf : Transaction → Bool
  | .reset => true
  | .load bytes => programWf bytes
  | .step => true
  | .tickTimers => true
  | .setKey index _ => keyIndexWf index
  | .framebuffer => true
  | .consumeRedrawFlag => true

end Sys2Proof
end

