-- ==== Sys2Proof/Tests/Slice0.lean ====
section
/-! SUPPORT. Small tests, each on one step or one transaction. Expected results are those of
spec/95_test_vectors.md (the vector's name stands in the comment before each test), or read off the encoding
table of spec/30_encoding.md R65. The last part gives, for each statement with hypotheses, values that
meet them. -/

namespace Sys2Proof.Tests

open Sys2Proof Sys2Proof.Machine

/-! ## Helpers -/

/-- The state with some registers set. -/
def setRegs (l : List (Reg × Byte)) (s : State) : State := l.foldl (fun t p => t.setV p.1 p.2) s

/-- The state with bytes written from an address on. -/
def poke (a : Nat) (bytes : List Byte) (s : State) : State := storeBytes bytes a s

/-- The state after reset with some registers set and a word at PC. -/
def placed (op : Nat) (l : List (Reg × Byte)) : State := (setRegs l State.reset).withFetchWord 16 op

/-- The state after one step, if the step goes on. -/
def after (s : State) : Option State :=
  match step s with
  | .next t => some t
  | .fault _ => none
  | .refused _ => none

/-- The cells that are 1, row by row. -/
def lit (fb : Framebuffer) : List (Nat × Nat) :=
  (List.range 32).flatMap fun y => ((List.range 64).filter fun x => pixel fb x y).map fun x => (x, y)

/-! ## What the core refuses (WellFormed) -/

theorem test_program_of_3584_bytes_is_wf : (Transaction.load (List.replicate 3584 0xAB)).wf = true := by
  rw [Transaction.wf, programWf, List.length_replicate]; rfl
theorem test_program_of_3585_bytes_is_refused : (Transaction.load (List.replicate 3585 0xAB)).wf = false := by
  rw [Transaction.wf, programWf, List.length_replicate]; rfl
theorem test_key_15_is_wf : (Transaction.setKey 15 true).wf = true := by decide
theorem test_key_16_is_refused : (Transaction.setKey 16 true).wf = false := by decide

/-! ## Decoding, each word written out digit by digit from its pattern in R65 -/

theorem test_decode_flow :
    decodeWord (0b0000#4 ++ 0b0000#4 ++ 0b1110#4 ++ 0b1110#4) = .ok .ret ∧
    decodeWord (0b0001#4 ++ 0b101010111100#12) = .ok (.jp 0xABC) ∧
    decodeWord (0b0010#4 ++ 0b001100000000#12) = .ok (.call 0x300) ∧
    decodeWord (0b0011#4 ++ 0b0011#4 ++ 0b00101010#8) = .ok (.seImm 3 0x2A) ∧
    decodeWord (0b0100#4 ++ 0b0011#4 ++ 0b00101010#8) = .ok (.sneImm 3 0x2A) ∧
    decodeWord (0b0101#4 ++ 0b0001#4 ++ 0b0010#4 ++ 0b0000#4) = .ok (.seReg 1 2) ∧
    decodeWord (0b1001#4 ++ 0b0001#4 ++ 0b0010#4 ++ 0b0000#4) = .ok (.sneReg 1 2) ∧
    decodeWord (0b1011#4 ++ 0b111111111111#12) = .ok (.jpV0 0xFFF) := by decide

theorem test_decode_alu :
    decodeWord (0b0110#4 ++ 0b1010#4 ++ 0b00101111#8) = .ok (.ldImm 10 0x2F) ∧
    decodeWord (0b0111#4 ++ 0b0001#4 ++ 0b00000010#8) = .ok (.addImm 1 2) ∧
    decodeWord (0b1000#4 ++ 0b0001#4 ++ 0b0010#4 ++ 0b0000#4) = .ok (.ldReg 1 2) ∧
    decodeWord (0b1000#4 ++ 0b0001#4 ++ 0b0010#4 ++ 0b0001#4) = .ok (.orReg 1 2) ∧
    decodeWord (0b1000#4 ++ 0b0001#4 ++ 0b0010#4 ++ 0b0010#4) = .ok (.andReg 1 2) ∧
    decodeWord (0b1000#4 ++ 0b0001#4 ++ 0b0010#4 ++ 0b0011#4) = .ok (.xorReg 1 2) ∧
    decodeWord (0b1000#4 ++ 0b1111#4 ++ 0b0010#4 ++ 0b0100#4) = .ok (.addReg 15 2) ∧
    decodeWord (0b1000#4 ++ 0b0001#4 ++ 0b0010#4 ++ 0b0101#4) = .ok (.subReg 1 2) ∧
    decodeWord (0b1000#4 ++ 0b0001#4 ++ 0b0010#4 ++ 0b0110#4) = .ok (.shr 1 2) ∧
    decodeWord (0b1000#4 ++ 0b0001#4 ++ 0b0010#4 ++ 0b0111#4) = .ok (.subnReg 1 2) ∧
    decodeWord (0b1000#4 ++ 0b0001#4 ++ 0b0010#4 ++ 0b1110#4) = .ok (.shl 1 2) ∧
    decodeWord (0b1100#4 ++ 0b0011#4 ++ 0b00001111#8) = .ok (.rnd 3 0x0F) := by decide

theorem test_decode_index_and_display :
    decodeWord (0b1010#4 ++ 0b001011110000#12) = .ok (.ldI 0x2F0) ∧
    decodeWord (0b1111#4 ++ 0b0010#4 ++ 0b00011110#8) = .ok (.addI 2) ∧
    decodeWord (0b1111#4 ++ 0b0100#4 ++ 0b00101001#8) = .ok (.ldF 4) ∧
    decodeWord (0b1111#4 ++ 0b0000#4 ++ 0b00110011#8) = .ok (.ldB 0) ∧
    decodeWord (0b1111#4 ++ 0b0001#4 ++ 0b01010101#8) = .ok (.ldMemVx 1) ∧
    decodeWord (0b1111#4 ++ 0b0010#4 ++ 0b01100101#8) = .ok (.ldVxMem 2) ∧
    decodeWord (0b0000#4 ++ 0b0000#4 ++ 0b1110#4 ++ 0b0000#4) = .ok .cls ∧
    decodeWord (0b1101#4 ++ 0b0001#4 ++ 0b0010#4 ++ 0b1010#4) = .ok (.drw 1 2 10) := by decide

theorem test_decode_keypad_and_timers :
    decodeWord (0b1110#4 ++ 0b0000#4 ++ 0b10011110#8) = .ok (.skp 0) ∧
    decodeWord (0b1110#4 ++ 0b0000#4 ++ 0b10100001#8) = .ok (.sknp 0) ∧
    decodeWord (0b1111#4 ++ 0b0010#4 ++ 0b00000111#8) = .ok (.ldVxDt 2) ∧
    decodeWord (0b1111#4 ++ 0b0011#4 ++ 0b00001010#8) = .ok (.ldVxK 3) ∧
    decodeWord (0b1111#4 ++ 0b0000#4 ++ 0b00010101#8) = .ok (.ldDtVx 0) ∧
    decodeWord (0b1111#4 ++ 0b0001#4 ++ 0b00011000#8) = .ok (.ldStVx 1) := by decide

/-- X1 to X11: the illegal words, by class. -/
theorem test_decode_illegal :
    [0x0000, 0x0123, 0x00E1, 0x5121, 0x9001, 0x8008, 0x800F, 0xE000, 0xE09F, 0xF000, 0xF066].map decodeWord =
      [.error .illegal0NNN, .error .illegal0NNN, .error .illegal0NNN, .error .illegal5XYN,
        .error .illegal9XYN, .error .illegal8XYN, .error .illegal8XYN, .error .illegalEXNN,
        .error .illegalEXNN, .error .illegalFXNN, .error .illegalFXNN] := by decide

/-- The first byte is the high one; bytes after the word are left; one byte is no instruction. -/
theorem test_decode_bytes :
    decode [0xD1, 0x2A, 0x99] = .ok (.drw 1 2 10, [0x99]) ∧ decode [0xD1] = .error .truncated ∧
    encode (.drw 1 2 10) = [0xD1, 0x2A] ∧ decodeTableWord 16 0x6A2F = some (.ldImm 10 0x2F) ∧
    decodeTableWord 16 0x5121 = none := by decide

/-! ## One step of each instruction -/

/-- F1. -/
theorem test_jp : (after (placed 0x1ABC [])).map (·.pc) = some 0x0ABC := by decide
/-- F5: the sixteenth entry. -/
theorem test_call : (after ({ placed 0x2300 [] with sp := 15 })).map (fun t => (t.stack[15], t.sp, t.pc)) =
    some (0x0202, 16, 0x0300) := by decide
/-- F6. -/
theorem test_call_overflow : step { placed 0x2300 [] with sp := 16 } = .fault (.stackOverflow 0x0200) := rfl
/-- F8: the entry keeps its bits. -/
theorem test_ret : (after ({ placed 0x00EE [] with sp := 1, stack := State.reset.stack.set 0 0x0ABC })).map
    (fun t => (t.sp, t.pc, t.stack[0])) = some (0, 0x0ABC, 0x0ABC) := by decide
/-- F9. -/
theorem test_ret_underflow : step (placed 0x00EE []) = .fault (.stackUnderflow 0x0200) := rfl
/-- F10, F11. -/
theorem test_se_imm : (after (placed 0x332A [(3, 0x2A)])).map (·.pc) = some 0x0204 ∧
    (after (placed 0x332A [(3, 0x2B)])).map (·.pc) = some 0x0202 := by decide
/-- F12, F13. -/
theorem test_sne_imm : (after (placed 0x432A [(3, 0x2A)])).map (·.pc) = some 0x0202 ∧
    (after (placed 0x432A [])).map (·.pc) = some 0x0204 := by decide
/-- F14. -/
theorem test_se_reg : (after (placed 0x5120 [(1, 7), (2, 7)])).map (·.pc) = some 0x0204 := by decide
/-- F16, F17. -/
theorem test_sne_reg : (after (placed 0x9120 [(1, 7), (2, 8)])).map (·.pc) = some 0x0204 ∧
    (after (placed 0x9440 [(4, 9)])).map (·.pc) = some 0x0202 := by decide
/-- F19: the sum is stored unmasked. -/
theorem test_jp_v0 : (after (placed 0xBFFF [(0, 0xFF)])).map (·.pc) = some 0x10FE := by decide
/-- F21: the PC wraps at 65536, the fetch at 4096. -/
theorem test_pc_wraps : (after (poke 0xFFE [0x60, 0x01] { State.reset with pc := 0xFFFE })).map
    (fun t => (t.getV 0, t.pc)) = some (1, 0x0000) := by decide
/-- F22, step 2: the second byte of the word at 0xFFF is at 0x000. -/
theorem test_fetch_wraps : (after (poke 0xFFF [0x60, 0x2A] { State.reset with pc := 0x0FFF })).map
    (fun t => (t.getV 0, t.pc)) = some (0x2A, 0x1001) := by decide

/-- A1. -/
theorem test_ld_imm : (after (placed 0x6A2F [])).map (fun t => (t.getV 10, t.pc)) = some (0x2F, 0x0202) := by decide
/-- A3, A5: no carry flag, also when VF is the destination. -/
theorem test_add_imm :
    (after (placed 0x7102 [(1, 0xFF)])).map (fun t => (t.getV 1, t.getV 15)) = some (0x01, 0x00) ∧
    (after (placed 0x7F02 [(15, 0xFF)])).map (·.getV 15) = some 0x01 := by decide
/-- A6. -/
theorem test_ld_reg : (after (placed 0x8120 [(2, 0x7C)])).map (·.getV 1) = some 0x7C := by decide
/-- A7. -/
theorem test_or : (after (placed 0x8121 [(1, 0xF0), (2, 0x0C), (15, 0x55)])).map
    (fun t => (t.getV 1, t.getV 15)) = some (0xFC, 0x55) := by decide
/-- A8. -/
theorem test_and : (after (placed 0x8122 [(1, 0xF0), (2, 0x3C), (15, 0x55)])).map
    (fun t => (t.getV 1, t.getV 15)) = some (0x30, 0x55) := by decide
/-- A9. -/
theorem test_xor : (after (placed 0x8123 [(1, 0xF0), (2, 0x3C), (15, 0x55)])).map
    (fun t => (t.getV 1, t.getV 15)) = some (0xCC, 0x55) := by decide
/-- A11 (S5), A12. -/
theorem test_add : (after (placed 0x8124 [(1, 0xFF), (2, 0x01)])).map
    (fun t => (t.getV 1, t.getV 15)) = some (0x00, 1) ∧
    (after (placed 0x8124 [(1, 0x7F), (2, 0x01)])).map (fun t => (t.getV 1, t.getV 15)) = some (0x80, 0) := by decide
/-- A15, A17: VF as the destination keeps the flag; as the source its old value is used. -/
theorem test_add_vf : (after (placed 0x8F24 [(15, 0xF0), (2, 0x20)])).map (·.getV 15) = some 1 ∧
    (after (placed 0x81F4 [(1, 0x10), (15, 0x01)])).map (fun t => (t.getV 1, t.getV 15)) = some (0x11, 0) := by decide
/-- A18 (S6), A19. -/
theorem test_sub : (after (placed 0x8125 [(1, 0x01), (2, 0x02)])).map
    (fun t => (t.getV 1, t.getV 15)) = some (0xFF, 0) ∧
    (after (placed 0x8125 [(1, 0x05), (2, 0x05)])).map (fun t => (t.getV 1, t.getV 15)) = some (0x00, 1) := by decide
/-- A22, A23: Y is ignored. -/
theorem test_shr : (after (placed 0x8106 [(1, 0x05)])).map (fun t => (t.getV 1, t.getV 15)) = some (0x02, 1) ∧
    (after (placed 0x8126 [(1, 0x04), (2, 0xFF)])).map (fun t => (t.getV 1, t.getV 15, t.getV 2)) =
      some (0x02, 0, 0xFF) := by decide
/-- A26: the flag overwrites the result in VF. -/
theorem test_shr_vf : (after (placed 0x8F06 [(15, 0x02)])).map (·.getV 15) = some 0 := by decide
/-- A27, A28. -/
theorem test_subn : (after (placed 0x8127 [(1, 0x02), (2, 0x01)])).map
    (fun t => (t.getV 1, t.getV 15)) = some (0xFF, 0) ∧
    (after (placed 0x8127 [(1, 0x01), (2, 0x03)])).map (fun t => (t.getV 1, t.getV 15)) = some (0x02, 1) := by decide
/-- A30, A31: Y is ignored. -/
theorem test_shl : (after (placed 0x810E [(1, 0x81)])).map (fun t => (t.getV 1, t.getV 15)) = some (0x02, 1) ∧
    (after (placed 0x812E [(1, 0x40), (2, 0xFF)])).map (fun t => (t.getV 1, t.getV 15, t.getV 2)) =
      some (0x80, 0, 0xFF) := by decide
/-- A34: whatever byte is drawn. -/
theorem test_rnd : (after (placed 0xC300 [(3, 0x77)])).map (fun t => (t.getV 3, t.draws)) = some (0x00, 1) := by
  simp only [after, show step (placed 0xC300 [(3, 0x77)]) = execRnd 3 0 (placed 0xC300 [(3, 0x77)]) from rfl]
  simp [execRnd, State.getV, State.setV, State.advance, State.setPc, drawRandomByte]
  rfl

/-- M1. -/
theorem test_ld_i : (after (placed 0xA2F0 [])).map (·.i) = some 0x02F0 := by decide
/-- M4: past 0x0FFF, no flag. -/
theorem test_add_i : (after { placed 0xF21E [(2, 1)] with i := 0x0FFF }).map
    (fun t => (t.i, t.getV 15)) = some (0x1000, 0) := by decide
/-- M7, M10: the low nibble is the digit. -/
theorem test_ld_f : (after (placed 0xF429 [(4, 0x0A)])).map (·.i) = some 0x0032 ∧
    (after (placed 0xF429 [(4, 0x1A)])).map (·.i) = some 0x0032 := by decide
/-- M11, M16: the digits, and the wrap at 0xFFF. -/
theorem test_ld_b : (after { placed 0xF033 [(0, 0xEA)] with i := 0x0300 }).map
    (fun t => (t.memRead 0x300, t.memRead 0x301, t.memRead 0x302, t.i)) = some (2, 3, 4, 0x0300) ∧
    (after { placed 0xF033 [(0, 0x7B)] with i := 0x0FFE }).map
      (fun t => (t.memRead 0xFFE, t.memRead 0xFFF, t.memRead 0x000)) = some (1, 2, 3) := by decide
/-- M17: V2 is not stored. -/
theorem test_ld_mem_vx : (after { placed 0xF155 [(0, 0x11), (1, 0x22), (2, 0x33)] with i := 0x0400 }).map
    (fun t => (t.memRead 0x400, t.memRead 0x401, t.memRead 0x402, t.i)) = some (0x11, 0x22, 0x00, 0x0400) := by decide
/-- M22: the second byte comes from the font at 0x000; V2 is not loaded. -/
theorem test_ld_vx_mem : (after (poke 0xFFF [0x77] { placed 0xF165 [(2, 9)] with i := 0x0FFF })).map
    (fun t => (t.getV 0, t.getV 1, t.getV 2, t.i)) = some (0x77, 0xF0, 9, 0x0FFF) := by decide

/-- D1. -/
theorem test_cls : (after { placed 0x00E0 [] with fb := Vector.replicate 32 1 }).map
    (fun t => (lit t.fb, t.redraw, t.pc)) = some ([], true, 0x0202) := by decide

/-- D5: over the right and the bottom edge, under either policy. -/
def edgeSprite : State := poke 0x300 [0xFF, 0xC0] { placed 0xD122 [(1, 62), (2, 31)] with i := 0x0300 }

theorem test_drw_wrap :
    lit (drawAt .wrap 1 2 2 edgeSprite).fb =
      [(62, 0), (63, 0), (0, 31), (1, 31), (2, 31), (3, 31), (4, 31), (5, 31), (62, 31), (63, 31)] ∧
    (drawAt .wrap 1 2 2 edgeSprite).getV 15 = 0 := by decide

theorem test_drw_clip :
    lit (drawAt .clip 1 2 2 edgeSprite).fb = [(62, 31), (63, 31)] ∧
    (drawAt .clip 1 2 2 edgeSprite).getV 15 = 0 := by decide

/-- D7: the wrapped pixel collides; the clipped one is not drawn. -/
def cornerPixel : State :=
  poke 0x300 [0xFF] { placed 0xD121 [(1, 60)] with i := 0x0300, fb := State.reset.fb.set 0 1 }

theorem test_drw_collision :
    lit (drawAt .wrap 1 2 1 cornerPixel).fb = [(1, 0), (2, 0), (3, 0), (60, 0), (61, 0), (62, 0), (63, 0)] ∧
    (drawAt .wrap 1 2 1 cornerPixel).getV 15 = 1 ∧
    lit (drawAt .clip 1 2 1 cornerPixel).fb = [(0, 0), (60, 0), (61, 0), (62, 0), (63, 0)] ∧
    (drawAt .clip 1 2 1 cornerPixel).getV 15 = 0 := by decide

/-- D9: VF is read as a coordinate before it is written; the step draws under the core's policy. -/
theorem test_drw_vf : lit (drawAt .clip 15 2 1 (poke 0x300 [0x80] { placed 0xDF21 [(15, 5), (2, 1)] with i := 0x0300 })).fb =
      [(5, 1)] ∧
    step (placed 0xDF21 []) = .next (drawAt Config.edgePolicy 15 2 1 (placed 0xDF21 [])) := ⟨by decide, rfl⟩

/-- K1, K3: the low nibble names the key. -/
theorem test_skp : (after { placed 0xE09E [(0, 5)] with key := 0x0020 }).map (·.pc) = some 0x0204 ∧
    (after { placed 0xE09E [(0, 0x1A)] with key := 0x0400 }).map (·.pc) = some 0x0204 := by decide
/-- K4, K5. -/
theorem test_sknp : (after (placed 0xE0A1 [(0, 5)])).map (·.pc) = some 0x0204 ∧
    (after { placed 0xE0A1 [(0, 5)] with key := 0x0020 }).map (·.pc) = some 0x0202 := by decide
/-- K9, first step. -/
theorem test_ld_k : (after { placed 0xF30A [] with key := 0x0004 }).map
    (fun t => (t.wait, t.waitKeys, t.pc)) = some (some 3, 0x0004, 0x0200) := by decide

/-- A core waiting to fill V3 that started with key 2 held (K9). -/
def awaiting : State := { placed 0xF30A [] with wait := some 3, waitKeys := 0x0004, key := 0x0004 }

/-- K10: the lowest new key. -/
theorem test_await_completes : (after { awaiting with key := 0x0214 }).map
    (fun t => (t.getV 3, t.wait, t.waitKeys, t.pc)) = some (4, none, 0, 0x0202) := by decide
/-- K11, first step: the held key is seen released. -/
theorem test_await_goes_on : (after { awaiting with key := 0x0000 }).map
    (fun t => (t.getV 3, t.wait, t.waitKeys, t.pc)) = some (0, some 3, 0, 0x0200) := by decide
/-- K14. -/
theorem test_ld_vx_dt : (after { placed 0xF207 [] with dt := 0x3C }).map
    (fun t => (t.getV 2, t.dt)) = some (0x3C, 0x3C) := by decide
/-- K15. -/
theorem test_ld_dt_vx : (after (placed 0xF015 [(0, 5)])).map (fun t => (t.dt, t.st)) = some (5, 0) := by decide
/-- K16. -/
theorem test_ld_st_vx : (after (placed 0xF118 [(1, 2)])).map (fun t => (t.dt, t.st)) = some (0, 2) := by decide

/-- X1, X4: the word and the PC are reported. -/
theorem test_decode_error : step State.reset = .fault (.decodeError 0x0000 0x0200) ∧
    step (placed 0x5121 []) = .fault (.decodeError 0x5121 0x0200) := ⟨rfl, rfl⟩

/-! ## Host transactions -/

/-- T6, T4. -/
theorem test_tick : (transact .tickTimers { State.reset with dt := 3, st := 1 }) =
      ({ State.reset with dt := 2, st := 0 }, .beep true) ∧
    transact .tickTimers State.reset = (State.reset, .beep false) := by decide
/-- T7, T9. -/
theorem test_set_key : (transact (.setKey 15 true) State.reset).1.key = 0x8000 ∧
    transact (.setKey 16 true) State.reset = (State.reset, .error (.invalidKeyIndex 16)) := by decide
/-- T10. -/
theorem test_consume : transact .consumeRedrawFlag { State.reset with redraw := true } =
    (State.reset, .redraw true) := by decide
/-- L5, in part: registers are kept. -/
theorem test_load :
    let t := (transact (.load [0x12, 0x00]) { setRegs [(3, 9)] State.reset with sp := 2, dt := 7, pc := 0x0456 }).1
    (t.memRead 0x200, t.memRead 0x201, t.pc, t.getV 3, t.sp, t.dt) = (0x12, 0x00, 0x0200, 9, 2, 7) := by decide
/-- L1, in part: the first and the last glyph, and the zeros after them. -/
theorem test_reset : [0x000, 0x001, 0x002, 0x04B, 0x04F, 0x050, 0xFFF].map State.reset.memRead =
    [0xF0, 0x90, 0x90, 0xF0, 0x80, 0x00, 0x00] := by decide

/-! ## Values that meet the hypotheses of the statements

One theorem for each statement of Certificates/Slice0/Obligations.lean that has hypotheses, under its
name; where it has several clauses, a conjunct for each, at an end of its range. -/

theorem witness_ResetValuesOfEveryElement :
    (80 ≤ 80 ∧ 80 < 4096) ∧ (80 ≤ 4095 ∧ 4095 < 4096) ∧ 15 < 16 ∧ 63 < 64 ∧ 31 < 32 := by decide

theorem witness_LoadWritesProgramAndPcOnly :
    (List.replicate 3584 (0xAB : Byte)).length ≤ 3584 ∧ 3583 < (List.replicate 3584 (0xAB : Byte)).length ∧
    (0x1FF < 4096 ∧ 0x1FF < 0x200) ∧ (0x201 < 4096 ∧ 0x200 + [(0xAB : Byte)].length ≤ 0x201) ∧
    ([] : List Byte).length ≤ 3584 := by
  rw [List.length_replicate]
  decide

theorem witness_LoadRejectsTooLargeProgram : (List.replicate 3585 (0xAB : Byte)).length > 3584 := by
  rw [List.length_replicate]
  decide

/-- Keys 7 and 15 are new in the first state, 15 alone in the second. -/
theorem witness_LoadDuringKeyWaitSkipsFirstInstruction :
    [(0x12 : Byte), 0x00].length ≤ 3584 ∧
    ({ awaiting with key := 0x8084 } : State).wait = some 3 ∧
    ({ awaiting with key := 0x8084 } : State).newlyPressed 7 ∧
    (∀ j, j < 7 → ¬ ({ awaiting with key := 0x8084 } : State).newlyPressed j) ∧
    ({ awaiting with key := 0x8004 } : State).newlyPressed 15 ∧
    (∀ j, j < 15 → ¬ ({ awaiting with key := 0x8004 } : State).newlyPressed j) := by
  refine ⟨by decide, rfl, by unfold State.newlyPressed; decide, ?_, by unfold State.newlyPressed; decide, ?_⟩ <;>
    unfold State.newlyPressed <;> decide

theorem witness_FetchReadsTwoBytesBigEndian : State.reset.pc.toNat ≠ 0xFFF ∧
    ({ State.reset with pc := 0x0FFF } : State).pc.toNat = 0xFFF := by decide

theorem witness_CanonicalMemoriesThatReadAlikeAreEqual :
    Memory.wf [(0x000, 0x01), (0xFFF, 0x02)] ∧ ¬ Memory.wf [(0x000, 0xF0)] ∧
    ¬ Memory.wf [(0xFFF, 0x02), (0x000, 0x01)] ∧ ¬ Memory.wf [(0x1000, 0x01)] := by decide

theorem witness_StepRunsTheDecodedInstruction :
    awaiting.wait = some 3 ∧
    ((placed 0x8124 []).wait = none ∧
      decode [(placed 0x8124 []).memRead (placed 0x8124 []).pc.toNat,
        (placed 0x8124 []).memRead ((placed 0x8124 []).pc.toNat + 1)] = .ok (.addReg 1 2, [])) ∧
    ((placed 0x5121 []).wait = none ∧
      decode [(placed 0x5121 []).memRead (placed 0x5121 []).pc.toNat,
        (placed 0x5121 []).memRead ((placed 0x5121 []).pc.toNat + 1)] = .error .illegal5XYN) ∧
    step (placed 0x5121 []) = .fault (.decodeError 0x5121 0x0200) := by
  exact ⟨by decide, by decide, by decide, rfl⟩

theorem witness_PlacedWordIsTheOneTheStepRuns :
    decodeTableWord 16 0x8124 = some (.addReg 1 2) ∧
    (0x202 < 4096 ∧ 0x202 ≠ State.reset.pc.toNat % 4096 ∧ 0x202 ≠ (State.reset.pc.toNat + 1) % 4096) := by decide

theorem witness_EncodeOfDecodeIsTheWord : decodeWord 0xD12A = .ok (.drw 1 2 0xA) := by decide

theorem witness_DecoderAcceptsExactlyTheOpcodeTable :
    decodeWord 0xF065 = .ok (.ldVxMem 0) ∧ decodeWord 0xF066 = .error .illegalFXNN := by decide

/-- The legal neighbours of every class, and an illegal word of it at each end. -/
theorem witness_IllegalWordsAreTheSixClasses :
    [0x0000, 0x00DF, 0x00E1, 0x00ED, 0x00EF, 0x0FFF].map decodeWord = List.replicate 6 (.error .illegal0NNN) ∧
    [0x5001, 0x5FFF].map decodeWord = List.replicate 2 (.error .illegal5XYN) ∧
    [0x8008, 0x800D, 0x800F, 0x8FFF].map decodeWord = List.replicate 4 (.error .illegal8XYN) ∧
    [0x9001, 0x9FFF].map decodeWord = List.replicate 2 (.error .illegal9XYN) ∧
    [0xE000, 0xE09D, 0xE0A2, 0xEFFF].map decodeWord = List.replicate 4 (.error .illegalEXNN) ∧
    [0xF000, 0xF006, 0xF066, 0xFFFF].map decodeWord = List.replicate 4 (.error .illegalFXNN) := by decide

theorem witness_MachineRoutineCallIsDecodeError :
    State.reset.wait = none ∧ State.reset.memRead2 State.reset.pc.toNat = 0x0000 ∧
    (0x0000 : Word).toNat / 4096 = 0 ∧ (0x0000 : Word) ≠ 0x00E0 ∧ (0x0000 : Word) ≠ 0x00EE ∧
    (placed 0x0FFF []).memRead2 (placed 0x0FFF []).pc.toNat = 0x0FFF ∧ (0x0FFF : Word).toNat / 4096 = 0 := by decide

theorem witness_ErrorsChangeNoStateAndRepeat :
    transact .step State.reset = (State.reset, .error (.decodeError 0x0000 0x0200)) := by decide

/-- Each of the five errors is raised by some transaction. -/
theorem witness_ErrorsAreExactlyTheTaxonomy :
    (∀ bytes : List Byte, bytes = List.replicate 3585 0 →
      (transact (.load bytes) State.reset).2 = .error (.loadTooLarge 3585)) ∧
    (transact .step State.reset).2 = .error (.decodeError 0x0000 0x0200) ∧
    (transact .step { placed 0x2300 [] with sp := 16 }).2 = .error (.stackOverflow 0x0200) ∧
    (transact .step (placed 0x00EE [])).2 = .error (.stackUnderflow 0x0200) ∧
    (transact (.setKey 16 false) State.reset).2 = .error (.invalidKeyIndex 16) := by
  refine ⟨fun bytes h => ?_, by decide⟩
  have hl : bytes.length = 3585 := by rw [h, List.length_replicate]
  rw [transact, load, hl]
  rfl

theorem witness_ReturnPopsOrUnderflows :
    State.reset.sp.val = 0 ∧ ({ State.reset with sp := 1 } : State).sp.val = 0 + 1 ∧
    ({ State.reset with sp := 16 } : State).sp.val = 15 + 1 := by decide

theorem witness_CallPushesOrOverflows :
    ({ State.reset with sp := 16 } : State).sp.val = 16 ∧ State.reset.sp.val < 16 ∧
    ({ State.reset with sp := 15 } : State).sp.val < 16 := by decide

theorem witness_RegisterSkipsCompareUnsigned : (1 : Nibble) ≠ 0 ∧ (15 : Nibble) ≠ 0 := by decide

theorem witness_JumpWithOffsetAddsV0 :
    exec (.jpV0 0xFFF) (setRegs [(0, 0xFF)] State.reset) = .next ((setRegs [(0, 0xFF)] State.reset).setPc 0x10FE) := rfl

theorem witness_ByteAccessesReduceTheAddress : 0x1001 % 4096 ≠ 0x1000 % 4096 ∧ 0x1000 % 4096 = 0 % 4096 := by decide

/-- S7. -/
theorem witness_CallThenReturnComesBack :
    let s := poke 0x300 [0x00, 0xEE] (placed 0x2300 [])
    s.wait = none ∧ s.sp.val < 16 ∧ decodeWord (s.memRead2 s.pc.toNat) = .ok (.call 0x300) ∧
      s.memRead2 (0x300 : Addr).toNat = 0x00EE ∧ 15 < 16 ∧ 15 ≠ s.sp.val := by decide

theorem witness_RandomByteUnderMask : (0x0F : Byte).getLsbD 4 = false := by decide

theorem witness_RegistersChangeOnlyByTheirWriters :
    exec (.addReg 1 2) State.reset =
      .next (State.reset.setResultAndFlag 1 (State.reset.getV 1 + State.reset.getV 2) false).advance ∧
    ¬ Instr.mayWrite (.addReg 1 2) 2 ∧ Instr.setsFlag (.addReg 1 2) = true := by
  refine ⟨rfl, ?_, rfl⟩
  unfold Instr.mayWrite
  decide

/-- With I = 0xFFE the digits stand at 0xFFE, 0xFFF and 0x000. -/
theorem witness_DecimalDigitsAreStored :
    (0xFFD < 4096 ∧ ∀ k, k < 3 → 0xFFD ≠ (0xFFE + k) % 4096) ∧
    (0x001 < 4096 ∧ ∀ k, k < 3 → 0x001 ≠ (0xFFE + k) % 4096) := by decide

theorem witness_RegistersAreStoredAtIndex :
    (15 : Reg).toNat ≤ (15 : Reg).toNat ∧ (0 : Reg).toNat ≤ (0 : Reg).toNat ∧
    (0x3FF < 4096 ∧ ∀ k : Reg, k.toNat ≤ (15 : Reg).toNat → 0x3FF ≠ (0x400 + k.toNat) % 4096) ∧
    (0x410 < 4096 ∧ ∀ k : Reg, k.toNat ≤ (15 : Reg).toNat → 0x410 ≠ (0x400 + k.toNat) % 4096) := by
  refine ⟨by decide, by decide, ⟨by decide, ?_⟩, ⟨by decide, ?_⟩⟩ <;> intro k _ <;> omega

theorem witness_RegistersAreLoadedFromIndex :
    (15 : Reg).toNat ≤ (15 : Reg).toNat ∧ (0 : Reg).toNat ≤ (0 : Reg).toNat ∧
    (0 : Reg).toNat < (1 : Reg).toNat ∧ (14 : Reg).toNat < (15 : Reg).toNat := by decide

theorem witness_StoredRegistersLoadBack :
    let t := (storeRegs (regsUpTo 1) State.reset).advance
    exec (.ldMemVx 1) State.reset = .next t ∧ (setRegs [(0, 9)] t).mem = t.mem ∧ (setRegs [(0, 9)] t).i = t.i ∧
      exec (.ldVxMem 1) (setRegs [(0, 9)] t) = .next (loadRegs (regsUpTo 1) (setRegs [(0, 9)] t)).advance ∧
      (1 : Reg).toNat ≤ (1 : Reg).toNat := ⟨rfl, rfl, rfl, rfl, by decide⟩

/-- M23. -/
theorem witness_NextFetchSeesTheStore :
    let s : State := { placed 0xF155 [(0, 0x12)] with i := 0x0202 }
    (0 : Reg).toNat ≤ (1 : Reg).toNat ∧ (1 : Reg).toNat ≤ (1 : Reg).toNat ∧
      (s.i.toNat + (0 : Reg).toNat) % 4096 = (s.pc.toNat + 2) % 4096 ∧
      (s.i.toNat + (1 : Reg).toNat) % 4096 = (s.pc.toNat + 3) % 4096 := by decide

theorem witness_ClearScreenBlanksEveryCell : 63 < 64 ∧ 31 < 32 := by decide

/-- D5 and D7: covered, not covered, colliding. -/
theorem witness_DrawInvertsCoveredCellsAndDetectsCollision :
    spriteCovers .wrap 62 31 (fun r => Memory.read edgeSprite.mem ((edgeSprite.i.toNat + r) % 4096)) 2 5 31 ∧
    ¬ spriteCovers .clip 62 31 (fun r => Memory.read edgeSprite.mem ((edgeSprite.i.toNat + r) % 4096)) 2 5 31 ∧
    spriteCovers .clip 62 31 (fun r => Memory.read edgeSprite.mem ((edgeSprite.i.toNat + r) % 4096)) 2 63 31 ∧
    (spriteCovers .wrap 60 0 (fun r => Memory.read cornerPixel.mem ((cornerPixel.i.toNat + r) % 4096)) 1 0 0 ∧
      pixel cornerPixel.fb 0 0 = true) := by
  refine ⟨⟨0, by decide, 7, by decide, by decide, by decide⟩, ?_,
    ⟨0, by decide, 1, by decide, by decide, by decide⟩,
    ⟨⟨0, by decide, 4, by decide, by decide, by decide⟩, by decide⟩⟩
  rintro ⟨r, _, c, _, _, h⟩
  simp only at h
  omega

theorem witness_DrawingTwiceRestoresTheFramebuffer : (1 : Reg) ≠ vF ∧ (2 : Reg) ≠ vF ∧ (14 : Reg) ≠ vF := by decide

theorem witness_KeyWaitCompletesWithTheLeastNewKey :
    ({ awaiting with key := 0x0214 } : State).wait = some 3 ∧
    (({ awaiting with key := 0x0214 } : State).newlyPressed 4 ∧
      ∀ j, j < 4 → ¬ ({ awaiting with key := 0x0214 } : State).newlyPressed j) ∧
    (awaiting.wait = some 3 ∧ ∀ k, k < 16 → ¬ awaiting.newlyPressed k) := by
  refine ⟨rfl, ⟨?_, ?_⟩, rfl, ?_⟩ <;> unfold State.newlyPressed <;> decide

theorem witness_OnlyAKeyOrResetEndsTheWait :
    awaiting.wait = some 3 ∧ (∀ k, k < 16 → ¬ awaiting.newlyPressed k) ∧
    (∀ tx ∈ [Transaction.step, .tickTimers, .load [0x12, 0x00], .framebuffer, .consumeRedrawFlag],
      tx ≠ .reset ∧ ∀ index pressed, tx ≠ .setKey index pressed) := by
  refine ⟨rfl, ?_, ?_⟩
  · unfold State.newlyPressed; decide
  · simp

theorem witness_SetKeySetsOneLevel : 0 < 16 ∧ 15 < 16 ∧ 16 > 15 := by decide

theorem witness_FramebufferReturnsEveryCell : 63 < 64 ∧ 31 < 32 ∧ 31 * 64 + 63 < 2048 := by decide

/-- REDRAW set and cleared. -/
theorem witness_ConsumeReadsAndClearsRedraw :
    (transact .consumeRedrawFlag { State.reset with redraw := true }).1.redraw = false ∧
    (transact .reset { State.reset with redraw := true }).1.redraw = false ∧
    (transact .step (placed 0x00E0 [])).1.redraw = true ∧ (placed 0x00E0 []).redraw = false := by decide

theorem witness_EachElementHasItsOnlyWriters :
    exec (.ldI 0x2F0) State.reset = .next (State.reset.setI 0x02F0).advance ∧
    (State.reset.setI 0x02F0).advance.i ≠ State.reset.i := ⟨rfl, by decide⟩

theorem witness_HostTransactionsKeepTheProgramsState :
    Transaction.load [0x12] ≠ .step ∧ Transaction.load [0x12] ≠ .reset ∧
    (Transaction.tickTimers ≠ .step ∧ Transaction.tickTimers ≠ .reset ∧
      ∀ bytes, Transaction.tickTimers ≠ .load bytes) := by simp

/-- The state after reset meets the invariant; a step of it that goes on; and a state that breaks it. -/
theorem witness_StepKeepsTheInvariant :
    (placed 0x6A2F []).Inv ∧ step (placed 0x6A2F []) = .next ((placed 0x6A2F []).setV 10 0x2F).advance ∧
    ¬ ({ State.reset with waitKeys := 1 } : State).Inv := by
  refine ⟨⟨by decide, fun _ => rfl⟩, rfl, fun h => ?_⟩
  exact absurd (h.waitKeys_idle rfl) (by decide)

theorem witness_EveryReachableStateMeetsTheInvariant :
    Reachable State.reset ∧
    ∃ s, Reachable s ∧ s.wait = some 3 :=
  ⟨.reset, _, .transact .step (.transact (.load [0xF3, 0x0A]) .reset), by decide⟩

theorem witness_HighBitsOfAddressesAreInvisible :
    SameUpToHighBits (placed 0x1ABC []) { placed 0x1ABC [] with pc := 0xF200, i := 0x3000 } := by
  constructor <;> first | rfl | (intro k h; rfl)

theorem witness_IdleLoopStays :
    (placed 0x1200 []).idleLoop ∧ (placed 0x1200 []).pc.toNat < 4096 ∧
    ({ placed 0x1200 [] with pc := 0x1200 } : State).idleLoop :=
  ⟨⟨rfl, 0x200, by decide, by decide⟩, by decide, ⟨rfl, 0x200, by decide, by decide⟩⟩

theorem witness_FaultStaysThroughStepsAndTicks :
    State.reset.wait = none ∧ step State.reset = .fault (.decodeError 0x0000 0x0200) ∧
    (∀ tx ∈ [Transaction.step, .tickTimers], tx = .step ∨ tx = .tickTimers) := ⟨rfl, rfl, by simp⟩

end Sys2Proof.Tests
end

section
/-! SUPPORT. One equation for each instruction: what `exec` does with it, in the named operations of the
state. Proofs about all instructions rewrite with these and do not unfold the meanings again. -/

namespace Sys2Proof.Machine

section ExecEquations

variable (s : State) (x y : Reg) (n : Nibble) (nn : Byte) (nnn : Addr)

/-! ### Flow -/

@[simp] theorem exec_ret : exec .ret s = returnToCaller s := rfl
@[simp] theorem exec_call : exec (.call nnn) s = callTo (zextAddr nnn) s := rfl
@[simp] theorem exec_jp : exec (.jp nnn) s = .next (s.setPc (zextAddr nnn)) := rfl
@[simp] theorem exec_jpV0 :
    exec (.jpV0 nnn) s = .next (s.setPc (zextByte (s.getV 0) + zextAddr nnn)) := rfl
@[simp] theorem exec_seImm : exec (.seImm x nn) s = .next (s.skipIf (s.getV x == nn)) := rfl
@[simp] theorem exec_sneImm : exec (.sneImm x nn) s = .next (s.skipIf (s.getV x != nn)) := rfl
@[simp] theorem exec_seReg : exec (.seReg x y) s = .next (s.skipIf (s.getV x == s.getV y)) := rfl
@[simp] theorem exec_sneReg : exec (.sneReg x y) s = .next (s.skipIf (s.getV x != s.getV y)) := rfl
@[simp] theorem exec_skp :
    exec (.skp x) s = .next (s.skipIf (s.keyDown (lowNibble (s.getV x)))) := rfl
@[simp] theorem exec_sknp :
    exec (.sknp x) s = .next (s.skipIf (!s.keyDown (lowNibble (s.getV x)))) := rfl

/-! ### Registers and ALU -/

@[simp] theorem exec_ldImm : exec (.ldImm x nn) s = .next (s.setV x nn).advance := rfl
@[simp] theorem exec_addImm : exec (.addImm x nn) s = .next (s.setV x (s.getV x + nn)).advance := rfl
@[simp] theorem exec_ldReg : exec (.ldReg x y) s = .next (s.setV x (s.getV y)).advance := rfl
@[simp] theorem exec_orReg :
    exec (.orReg x y) s = .next (s.setV x (s.getV x ||| s.getV y)).advance := rfl
@[simp] theorem exec_andReg :
    exec (.andReg x y) s = .next (s.setV x (s.getV x &&& s.getV y)).advance := rfl
@[simp] theorem exec_xorReg :
    exec (.xorReg x y) s = .next (s.setV x (s.getV x ^^^ s.getV y)).advance := rfl
@[simp] theorem exec_addReg : exec (.addReg x y) s =
    .next (s.setResultAndFlag x (s.getV x + s.getV y) (carryOut (s.getV x) (s.getV y))).advance := rfl
@[simp] theorem exec_subReg : exec (.subReg x y) s =
    .next (s.setResultAndFlag x (s.getV x - s.getV y) (noBorrow (s.getV x) (s.getV y))).advance := rfl
@[simp] theorem exec_subnReg : exec (.subnReg x y) s =
    .next (s.setResultAndFlag x (s.getV y - s.getV x) (noBorrow (s.getV y) (s.getV x))).advance := rfl
@[simp] theorem exec_shr : exec (.shr x y) s =
    .next (s.setResultAndFlag x (s.getV x >>> 1) (lowBit (s.getV x))).advance := rfl
@[simp] theorem exec_shl : exec (.shl x y) s =
    .next (s.setResultAndFlag x (s.getV x <<< 1) (highBit (s.getV x))).advance := rfl
@[simp] theorem exec_rnd : exec (.rnd x nn) s =
    .next ((drawRandomByte s).2.setV x ((drawRandomByte s).1 &&& nn)).advance := rfl

/-! ### Index register, memory, display, keypad and timers -/

@[simp] theorem exec_ldI : exec (.ldI nnn) s = .next (s.setI (zextAddr nnn)).advance := rfl
@[simp] theorem exec_addI : exec (.addI x) s = .next (s.setI (s.i + zextByte (s.getV x))).advance := rfl
@[simp] theorem exec_ldF :
    exec (.ldF x) s = .next (s.setI (glyphAddr (lowNibble (s.getV x)))).advance := rfl
@[simp] theorem exec_ldB : exec (.ldB x) s = .next (storeDigits (s.getV x) s).advance := rfl
@[simp] theorem exec_ldMemVx : exec (.ldMemVx x) s = .next (storeRegs (regsUpTo x) s).advance := rfl
@[simp] theorem exec_ldVxMem : exec (.ldVxMem x) s = .next (loadRegs (regsUpTo x) s).advance := rfl
@[simp] theorem exec_cls : exec .cls s = .next ((s.setFb blankScreen).setRedraw true).advance := rfl
@[simp] theorem exec_drw : exec (.drw x y n) s = .next (drawAt Config.edgePolicy x y n s) := rfl
@[simp] theorem exec_ldVxK : exec (.ldVxK x) s = .next (s.setWait (some x) s.key) := rfl
@[simp] theorem exec_ldVxDt : exec (.ldVxDt x) s = .next (s.setV x s.dt).advance := rfl
@[simp] theorem exec_ldDtVx : exec (.ldDtVx x) s = .next (s.setDt (s.getV x)).advance := rfl
@[simp] theorem exec_ldStVx : exec (.ldStVx x) s = .next (s.setSt (s.getV x)).advance := rfl

end ExecEquations

/-- A call that goes on writes STACK, SP and PC alone. -/
theorem callTo_next {target : Word} {s t : State} (h : callTo target s = .next t) :
    t = { s with stack := t.stack, sp := t.sp, pc := target } := by
  unfold callTo at h
  split at h <;> cases h
  rfl

/-- A return that goes on writes SP and PC alone. -/
theorem returnToCaller_next {s t : State} (h : returnToCaller s = .next t) :
    t = { s with sp := t.sp, pc := t.pc } := by
  unfold returnToCaller at h
  split at h <;> cases h
  rfl

/-- Storing the digits of a byte writes MEM alone. -/
theorem storeDigits_frame (b : Byte) (s : State) :
    storeDigits b s = { s with mem := (storeDigits b s).mem } := rfl

/-- Drawing a random byte advances the draw counter alone. -/
theorem drawRandomByte_frame (s : State) :
    (drawRandomByte s).2 = { s with draws := s.draws + 1 } := rfl

@[simp] theorem getV_drawRandomByte (s : State) (x : Reg) :
    (drawRandomByte s).2.getV x = s.getV x := rfl

end Sys2Proof.Machine
end

section
/-! SUPPORT. Which elements of the state (spec/10_state.md R13 to R22) and which registers (R11) each
instruction writes. -/

namespace Sys2Proof.Machine

/-- Settles O53, by cases over the instructions: each writes what its equation names. -/
theorem eachElementHasItsOnlyWriters : Obligations.EachElementHasItsOnlyWriters := by
  intro i s t h
  cases i with
  | call nnn => rw [callTo_next h]; simp
  | ret => rw [returnToCaller_next h]; simp
  | seImm | sneImm | seReg | sneReg | skp | sknp =>
    obtain rfl := Host.Outcome.next.inj h
    simp [State.skipIf_eq]
  | rnd x nn =>
    obtain rfl := Host.Outcome.next.inj h
    simp [drawRandomByte_frame]
  | ldB =>
    obtain rfl := Host.Outcome.next.inj h
    rw [storeDigits_frame]
    simp
  | drw =>
    obtain rfl := Host.Outcome.next.inj h
    rw [drawAt_frame]
    simp
  | _ =>
    obtain rfl := Host.Outcome.next.inj h
    simp

/-- Loading registers leaves a register that is not in the list as it was. -/
theorem getV_loadRegs_of_notMem {ks : List Reg} {k : Reg} (hk : k ∉ ks) (s : State) :
    (loadRegs ks s).getV k = s.getV k := by
  induction ks generalizing s with
  | nil => rfl
  | cons j ks ih =>
    obtain ⟨hkj, hks⟩ := not_or.mp (List.mem_cons.not.mp hk)
    calc (loadRegs (j :: ks) s).getV k
        = (s.setV j (s.memRead (s.indexAddr j.toNat))).getV k := ih hks _
      _ = s.getV k := by simp [hkj]

/-- What DRW does to the state, up to the canvas the sprite engine leaves. -/
theorem exists_canvas_drawAt (policy : EdgePolicy) (x y : Reg) (n : Nibble) (s : State) :
    ∃ c : Canvas,
      drawAt policy x y n s = (((s.setFb c.fb).setFlag c.coll).setRedraw true).advance :=
  ⟨_, rfl⟩

/-- A flag is exactly 0 or 1. -/
theorem flagByte_eq_zero_or_one (f : Bool) : flagByte f = 0 ∨ flagByte f = 1 := by
  cases f
  · exact .inl rfl
  · exact .inr rfl

/-- An instruction that goes on changes no register it may not write. -/
theorem exec_getV_of_not_mayWrite {i : Instr} {s t : State} (h : exec i s = .next t) {k : Reg}
    (hk : ¬ Instr.mayWrite i k) : t.getV k = s.getV k := by
  cases i with
  | call nnn => rw [callTo_next h]; rfl
  | ret => rw [returnToCaller_next h]; rfl
  | seImm | sneImm | seReg | sneReg | skp | sknp =>
    obtain rfl := Host.Outcome.next.inj h
    simp [State.skipIf_eq]
  | ldImm x | addImm x | ldReg x | orReg x | andReg x | xorReg x | ldVxDt x =>
    obtain rfl := Host.Outcome.next.inj h
    have hkx : k ≠ x := hk
    simp [hkx]
  | rnd x nn =>
    obtain rfl := Host.Outcome.next.inj h
    have hkx : k ≠ x := hk
    simp [hkx]
  | addReg x | subReg x | shr x | subnReg x | shl x =>
    obtain rfl := Host.Outcome.next.inj h
    obtain ⟨hkx, hkF⟩ : k ≠ x ∧ k ≠ vF := not_or.mp hk
    simp [State.getV_setResultAndFlag, hkx, hkF]
  | drw x y n =>
    obtain rfl := Host.Outcome.next.inj h
    have hkF : k ≠ vF := hk
    obtain ⟨c, hc⟩ := exists_canvas_drawAt Config.edgePolicy x y n s
    simp [hc, hkF]
  | ldVxMem x =>
    obtain rfl := Host.Outcome.next.inj h
    exact getV_loadRegs_of_notMem (fun hmem => hk (mem_regsUpTo.mp hmem)) s
  | ldMemVx x =>
    obtain rfl := Host.Outcome.next.inj h
    simp [State.getV]
  | cls | jp | ldI | jpV0 | ldVxK | ldDtVx | ldStVx | addI | ldF | ldB =>
    obtain rfl := Host.Outcome.next.inj h
    rfl

/-- An instruction that writes VF as a flag leaves a flag in it, even when VF is its destination. -/
theorem exec_getV_vF_of_setsFlag {i : Instr} {s t : State} (h : exec i s = .next t)
    (hi : Instr.setsFlag i = true) : ∃ f, t.getV vF = flagByte f := by
  cases i with
  | addReg x y | subReg x y | shr x y | subnReg x y | shl x y =>
    obtain rfl := Host.Outcome.next.inj h
    exact ⟨_, (State.getV_setResultAndFlag ..).trans (if_pos rfl)⟩
  | drw x y n =>
    obtain rfl := Host.Outcome.next.inj h
    obtain ⟨c, hc⟩ := exists_canvas_drawAt Config.edgePolicy x y n s
    exact ⟨c.coll, by simp [hc]⟩
  | _ => cases hi

/-- Settles O33, from what each instruction does to the registers it may not write and to VF. -/
theorem registersChangeOnlyByTheirWriters : Obligations.RegistersChangeOnlyByTheirWriters := by
  intro i s t h
  refine ⟨fun k hk => exec_getV_of_not_mayWrite h hk, fun hi => ?_⟩
  obtain ⟨f, hf⟩ := exec_getV_vF_of_setsFlag h hi
  rw [hf]
  exact flagByte_eq_zero_or_one f

end Sys2Proof.Machine
end

section
/-! SUPPORT. The canonical form of memory determines the list (log entry 8), the machine's invariant holds
in every reachable state (spec/10_state.md R26), and the values after reset (R24). -/

namespace Sys2Proof.Machine

namespace Memory

theorem mem_of_lookup {m : Memory} {a : Nat} {v : Byte} (h : lookup m a = some v) : (a, v) ∈ m := by
  induction m with
  | nil => cases h
  | cons c rest ih =>
    obtain ⟨b, w⟩ := c
    unfold lookup at h
    split at h
    · next hab => cases h; subst hab; exact List.mem_cons_self
    · exact List.mem_cons_of_mem _ (ih h)

theorem lookup_of_mem {m : Memory} (hs : m.Pairwise (fun c d => c.1 < d.1)) {a : Nat} {v : Byte}
    (h : (a, v) ∈ m) : lookup m a = some v := by
  induction hs with
  | nil => cases h
  | @cons c rest hlt _ ih =>
    rcases List.mem_cons.mp h with rfl | hrest
    · simp [lookup]
    · have hne : a ≠ c.1 := Nat.ne_of_gt (hlt _ hrest)
      simp [lookup, hne, ih hrest]

/-- A canonical memory lists exactly the bytes below 4096 that differ from their reset contents. -/
theorem mem_iff_read {m : Memory} (h : wf m) (a : Nat) (v : Byte) :
    (a, v) ∈ m ↔ a < 4096 ∧ v ≠ resetByte a ∧ read m a = v := by
  obtain ⟨hsorted, hcells⟩ := h
  constructor
  · intro hmem
    obtain ⟨ha, hv⟩ := hcells _ hmem
    exact ⟨ha, hv, by simp [read, lookup_of_mem hsorted hmem]⟩
  · rintro ⟨-, hv, rfl⟩
    cases hl : lookup m a with
    | none => simp [read, hl] at hv
    | some w => simpa [read, hl] using mem_of_lookup hl

end Memory

/-- Settles O8: both lists hold the same cells in the same strict order of addresses. -/
theorem canonicalMemoriesThatReadAlikeAreEqual :
    Obligations.CanonicalMemoriesThatReadAlikeAreEqual := by
  intro m m' hm hm' hread
  have hirrefl : Std.Irrefl (fun c d : Host.Cell => c.1 < d.1) := ⟨fun c => Nat.lt_irrefl c.1⟩
  have hasymm : Std.Asymm (fun c d : Host.Cell => c.1 < d.1) := ⟨fun _ _ => Nat.lt_asymm⟩
  refine hm.1.eq_of_mem_iff hm'.1 fun ⟨a, v⟩ => ?_
  rw [Memory.mem_iff_read hm, Memory.mem_iff_read hm']
  exact and_congr_right fun ha => by rw [hread a ha]

/-- Settles O55. -/
theorem invariantHoldsAfterReset : Obligations.InvariantHoldsAfterReset :=
  ⟨Memory.wf_nil, fun _ => rfl⟩

/-- An instruction that goes on keeps memory canonical: only `LD B` and `LD [I]` write it. -/
theorem exec_mem_wf {i : Instr} {s t : State} (hs : Memory.wf s.mem) (h : exec i s = .next t) :
    Memory.wf t.mem := by
  obtain ⟨-, -, hmem, -⟩ := eachElementHasItsOnlyWriters i s t h
  by_cases hts : t.mem = s.mem
  · rwa [hts]
  · obtain ⟨x, rfl⟩ | ⟨x, rfl⟩ := hmem hts <;> obtain rfl := Host.Outcome.next.inj h
    · exact storeDigits_wf _ hs
    · exact storeRegs_wf _ hs

/-- An instruction that goes on and leaves no wait pending has left the wait state alone: only
`LD Vx, K` writes it. -/
theorem exec_wait_none {i : Instr} {s t : State} (h : exec i s = .next t) (ht : t.wait = none) :
    s.wait = none ∧ t.waitKeys = s.waitKeys := by
  obtain ⟨-, -, -, -, -, -, -, -, -, hwait, -⟩ := eachElementHasItsOnlyWriters i s t h
  by_cases hts : t.wait ≠ s.wait ∨ t.waitKeys ≠ s.waitKeys
  · obtain ⟨x, rfl⟩ := hwait hts
    obtain rfl := Host.Outcome.next.inj h
    cases ht
  · obtain ⟨hw, hk⟩ := not_or.mp hts
    exact ⟨(not_not.mp hw).symm.trans ht, not_not.mp hk⟩

theorem exec_inv {i : Instr} {s t : State} (hs : s.Inv) (h : exec i s = .next t) : t.Inv where
  mem_wf := exec_mem_wf hs.mem_wf h
  waitKeys_idle ht := by
    obtain ⟨hw, hk⟩ := exec_wait_none h ht
    rw [hk, hs.waitKeys_idle hw]

/-- The await logic keeps memory, and ends the wait only together with its keys. -/
theorem awaitKey_inv (r : Reg) {s : State} (hs : s.Inv) : (awaitKey r s).Inv := by
  obtain ⟨k, -, heq⟩ | ⟨-, heq⟩ := awaitKey_cases r s <;> rw [heq]
  · exact ⟨hs.mem_wf, fun _ => rfl⟩
  · exact ⟨hs.mem_wf, fun h => nomatch h⟩

/-- Settles O56: the step is the await logic, an instruction, or an error. -/
theorem stepKeepsTheInvariant : Obligations.StepKeepsTheInvariant := by
  intro s t hs h
  obtain ⟨r, -, heq⟩ | ⟨i, -, -, heq⟩ | ⟨e, -, -, heq⟩ := step_cases s <;> rw [heq] at h
  · cases h
    exact awaitKey_inv r hs
  · exact exec_inv hs h
  · cases h

/-- A result that keeps the invariant where it goes on keeps it when it is settled: an error leaves the
state it found (R171). -/
theorem settle_inv {s : State} (hs : s.Inv) {o : Host.Outcome State Fault Refusal}
    (h : ∀ t, o = .next t → t.Inv) : (settle s o).1.Inv := by
  cases o with
  | next t => exact h t rfl
  | fault | refused => exact hs

theorem load_inv (bytes : List Byte) {s t : State} (hs : s.Inv) (h : load bytes s = .next t) :
    t.Inv := by
  unfold load at h
  split at h <;> cases h
  refine ⟨storeBytes_wf bytes loadAddr hs.mem_wf, fun hw => ?_⟩
  simp only [State.setPc_wait, storeBytes_wait] at hw
  simp [hs.waitKeys_idle hw]

theorem setKey_inv (index : Nat) (pressed : Bool) {s t : State} (hs : s.Inv)
    (h : setKey index pressed s = .next t) : t.Inv := by
  unfold setKey at h
  split at h <;> cases h
  exact ⟨hs.mem_wf, hs.waitKeys_idle⟩

/-- Every transaction keeps the invariant. -/
theorem transact_inv (tx : Transaction) {s : State} (hs : s.Inv) : (transact tx s).1.Inv := by
  cases tx with
  | reset => exact ⟨Memory.wf_nil, fun _ => rfl⟩
  | load bytes => exact settle_inv hs fun _ => load_inv bytes hs
  | step => exact settle_inv hs fun t => stepKeepsTheInvariant s t hs
  | setKey index pressed => exact settle_inv hs fun _ => setKey_inv index pressed hs
  | tickTimers | framebuffer | consumeRedrawFlag => exact ⟨hs.mem_wf, hs.waitKeys_idle⟩

theorem Reachable.inv {s : State} (h : Reachable s) : s.Inv := by
  induction h with
  | reset => exact invariantHoldsAfterReset
  | transact tx _ ih => exact transact_inv tx ih

/-- Settles O57: the invariant by induction over the transactions, the bounds of R26 by the widths of the
fields. -/
theorem everyReachableStateMeetsTheInvariant :
    Obligations.EveryReachableStateMeetsTheInvariant := by
  intro s h
  exact ⟨h.inv, by omega, fun k => by omega, by omega, by omega, by omega, by omega,
    fun r _ => by omega⟩

theorem resetByte_of_font_le {a : Nat} (h : 80 ≤ a) : resetByte a = 0 := by
  have hlen : fontBytes.length ≤ a := h
  simp [resetByte, fontBase, hlen]

theorem pixel_blankScreen (x y : Nat) : pixel blankScreen x y = false := by
  simp [pixel, blankScreen]

/-- Settles O1: the font's bytes by evaluation, every other element by its own law. -/
theorem resetValuesOfEveryElement : Obligations.ResetValuesOfEveryElement := by
  refine ⟨by decide, fun a hle hlt => ?_, State.getV_reset, rfl, rfl, rfl, fun k hk => ?_, rfl, rfl,
    fun k _ => ?_, fun x y _ _ => pixel_blankScreen x y, rfl, rfl, rfl⟩
  · rw [State.memRead_reset, Nat.mod_eq_of_lt hlt]
    exact resetByte_of_font_le hle
  · simp [State.reset]
  · simp [State.reset]

end Sys2Proof.Machine
end

section
/-! SUPPORT. Bits 15-12 of PC, I and the STACK entries are invisible (spec/10_state.md R27): every named
operation keeps two states equal up to those bits, hence so do all instructions and transactions. -/

namespace Sys2Proof.Machine

/-! ### Addresses up to bits 15-12 -/

theorem sameLow12.refl (a : Word) : sameLow12 a a := rfl

/-- 65536 is a multiple of 4096, so an addition that wraps keeps the agreement of the low 12 bits. -/
theorem sameLow12.add {a b : Word} (h : sameLow12 a b) (c : Word) : sameLow12 (a + c) (b + c) := by
  unfold sameLow12 at *
  rw [BitVec.toNat_add, BitVec.toNat_add]
  omega

theorem sameLow12.effAddr_add {a b : Word} (h : sameLow12 a b) (k : Nat) :
    effAddr (a.toNat + k) = effAddr (b.toNat + k) :=
  Nat.ModEq.add_right k h

namespace SameUpToHighBits

variable {s t : State}

/-! ### What the two states read alike -/

theorem getV (h : SameUpToHighBits s t) (x : Reg) : s.getV x = t.getV x := by
  simp only [State.getV, h.v]

theorem keyDown (h : SameUpToHighBits s t) (k : Nat) : s.keyDown k = t.keyDown k := by
  simp only [State.keyDown, h.key]

theorem newKeys (h : SameUpToHighBits s t) : s.newKeys = t.newKeys := by
  simp only [State.newKeys, h.key, h.waitKeys]

/-- Every access reduces its address modulo 4096 (R40), so it does not see bits 15-12. -/
theorem memRead_add (h : SameUpToHighBits s t) {a b : Word} (hab : sameLow12 a b) (k : Nat) :
    s.memRead (a.toNat + k) = t.memRead (b.toNat + k) := by
  simp only [State.memRead, h.mem, hab.effAddr_add k]

theorem memRead_indexAddr (h : SameUpToHighBits s t) (k : Nat) :
    s.memRead (s.indexAddr k) = t.memRead (t.indexAddr k) :=
  h.memRead_add h.i k

theorem fetch (h : SameUpToHighBits s t) : s.fetch = t.fetch :=
  congrArg₂ wordOfBytes (h.memRead_add h.pc 0) (h.memRead_add h.pc 1)

/-! ### The named updates keep the agreement -/

theorem setV (h : SameUpToHighBits s t) (x : Reg) (b : Byte) :
    SameUpToHighBits (s.setV x b) (t.setV x b) :=
  { h with v := by simp only [State.setV_v, h.v] }

theorem setI (h : SameUpToHighBits s t) {a b : Word} (hab : sameLow12 a b) :
    SameUpToHighBits (s.setI a) (t.setI b) :=
  { h with i := hab }

theorem setPc (h : SameUpToHighBits s t) {a b : Word} (hab : sameLow12 a b) :
    SameUpToHighBits (s.setPc a) (t.setPc b) :=
  { h with pc := hab }

theorem setDt (h : SameUpToHighBits s t) (b : Byte) : SameUpToHighBits (s.setDt b) (t.setDt b) :=
  { h with dt := rfl }

theorem setSt (h : SameUpToHighBits s t) (b : Byte) : SameUpToHighBits (s.setSt b) (t.setSt b) :=
  { h with st := rfl }

theorem setKeys (h : SameUpToHighBits s t) (w : BitVec 16) :
    SameUpToHighBits (s.setKeys w) (t.setKeys w) :=
  { h with key := rfl }

theorem setFb (h : SameUpToHighBits s t) (f : Framebuffer) :
    SameUpToHighBits (s.setFb f) (t.setFb f) :=
  { h with fb := rfl }

theorem setRedraw (h : SameUpToHighBits s t) (b : Bool) :
    SameUpToHighBits (s.setRedraw b) (t.setRedraw b) :=
  { h with redraw := rfl }

theorem setWait (h : SameUpToHighBits s t) (w : Option Reg) (k : BitVec 16) :
    SameUpToHighBits (s.setWait w k) (t.setWait w k) :=
  { h with wait := rfl, waitKeys := rfl }

theorem memWrite (h : SameUpToHighBits s t) {a b : Nat} (hab : effAddr a = effAddr b) (v : Byte) :
    SameUpToHighBits (s.memWrite a v) (t.memWrite b v) :=
  { h with mem := by simp only [State.memWrite_mem, h.mem, hab] }

theorem advance (h : SameUpToHighBits s t) : SameUpToHighBits s.advance t.advance :=
  h.setPc (h.pc.add 2)

theorem skipIf (h : SameUpToHighBits s t) (c : Bool) :
    SameUpToHighBits (s.skipIf c) (t.skipIf c) := by
  cases c
  · exact h.advance
  · exact h.setPc (h.pc.add 4)

theorem setFlag (h : SameUpToHighBits s t) (f : Bool) :
    SameUpToHighBits (s.setFlag f) (t.setFlag f) :=
  h.setV vF (flagByte f)

theorem setResultAndFlag (h : SameUpToHighBits s t) (x : Reg) (r : Byte) (f : Bool) :
    SameUpToHighBits (s.setResultAndFlag x r f) (t.setResultAndFlag x r f) :=
  (h.setV x r).setFlag f

/-- The two states have drawn equally often, so they draw the same byte (log entry 2). -/
theorem drawRandomByte_fst (h : SameUpToHighBits s t) :
    (drawRandomByte s).1 = (drawRandomByte t).1 :=
  congrArg Config.randomByte h.draws

theorem drawRandomByte_snd (h : SameUpToHighBits s t) :
    SameUpToHighBits (drawRandomByte s).2 (drawRandomByte t).2 :=
  { h with draws := congrArg (· + 1) h.draws }

/-! ### Loops over registers and bytes -/

theorem storeDigits (h : SameUpToHighBits s t) (b : Byte) :
    SameUpToHighBits (storeDigits b s) (storeDigits b t) :=
  ((h.memWrite (h.i.effAddr_add 0) (hundreds b)).memWrite (h.i.effAddr_add 1) (tens b)).memWrite
    (h.i.effAddr_add 2) (ones b)

theorem storeReg (h : SameUpToHighBits s t) (k : Reg) :
    SameUpToHighBits (s.memWrite (s.indexAddr k.toNat) (s.getV k))
      (t.memWrite (t.indexAddr k.toNat) (t.getV k)) := by
  rw [h.getV k]
  exact h.memWrite (h.i.effAddr_add k.toNat) (t.getV k)

theorem storeRegs (h : SameUpToHighBits s t) (ks : List Reg) :
    SameUpToHighBits (storeRegs ks s) (storeRegs ks t) := by
  induction ks generalizing s t with
  | nil => exact h
  | cons k ks ih => exact ih (h.storeReg k)

theorem loadReg (h : SameUpToHighBits s t) (k : Reg) :
    SameUpToHighBits (s.setV k (s.memRead (s.indexAddr k.toNat)))
      (t.setV k (t.memRead (t.indexAddr k.toNat))) := by
  rw [h.memRead_indexAddr k.toNat]
  exact h.setV k (t.memRead (t.indexAddr k.toNat))

theorem loadRegs (h : SameUpToHighBits s t) (ks : List Reg) :
    SameUpToHighBits (loadRegs ks s) (loadRegs ks t) := by
  induction ks generalizing s t with
  | nil => exact h
  | cons k ks ih => exact ih (h.loadReg k)

theorem storeBytes (h : SameUpToHighBits s t) (bs : List Byte) (a : Nat) :
    SameUpToHighBits (storeBytes bs a s) (storeBytes bs a t) := by
  induction bs generalizing a s t with
  | nil => exact h
  | cons b bs ih => exact ih (h.memWrite rfl b) (a + 1)

/-! ### The sprite engine and the await logic -/

theorem spriteRow (h : SameUpToHighBits s t) : s.spriteRow = t.spriteRow :=
  funext fun r => h.memRead_indexAddr r

theorem drawAt (h : SameUpToHighBits s t) (policy : EdgePolicy) (x y : Reg) (n : Nibble) :
    SameUpToHighBits (drawAt policy x y n s) (drawAt policy x y n t) := by
  simp only [Machine.drawAt, h.getV, h.spriteRow, h.fb]
  exact (((h.setFb _).setFlag _).setRedraw true).advance

theorem awaitKey (h : SameUpToHighBits s t) (r : Reg) :
    SameUpToHighBits (awaitKey r s) (awaitKey r t) := by
  simp only [Machine.awaitKey, h.newKeys, h.waitKeys, h.key]
  cases leastKey t.newKeys with
  | some k => exact ((h.setV r _).setWait none 0).advance
  | none => exact h.setWait (some r) _

end SameUpToHighBits

/-! ### Outcomes up to bits 15-12 -/

/-- Two outcomes that go on to states, or stop with errors, that differ at most in bits 15-12 (R27). -/
inductive SameOutcome : Host.Outcome State Fault Refusal → Host.Outcome State Fault Refusal → Prop
  | next {s t : State} : SameUpToHighBits s t → SameOutcome (.next s) (.next t)
  | fault {f g : Fault} : f.sameButHighPc g → SameOutcome (.fault f) (.fault g)

/-- Two transactions' ends: states that differ at most in bits 15-12, and one answer, but for bits 15-12
of the PC an error reports (R27). -/
def SameEnd (p q : State × Response) : Prop :=
  SameUpToHighBits p.1 q.1 ∧
    (p.2 = q.2 ∨ ∃ f g, p.2 = .error f ∧ q.2 = .error g ∧ f.sameButHighPc g)

theorem SameOutcome.settle {s t : State} (h : SameUpToHighBits s t)
    {o o' : Host.Outcome State Fault Refusal} (ho : SameOutcome o o') :
    SameEnd (settle s o) (settle t o') := by
  cases ho with
  | next hst => exact ⟨hst, .inl rfl⟩
  | @fault f g hfg => exact ⟨h, .inr ⟨f, g, rfl, rfl, hfg⟩⟩

namespace SameUpToHighBits

variable {s t : State}

theorem callTo (h : SameUpToHighBits s t) (target : Word) :
    SameOutcome (callTo target s) (callTo target t) := by
  by_cases hs : s.sp.val < 16
  · have ht : t.sp.val < 16 := h.sp ▸ hs
    rw [callTo_of_lt target hs, callTo_of_lt target ht]
    refine .next { h with pc := rfl, sp := by simp only [h.sp], stack := fun k hk => ?_ }
    simp only [h.sp, Vector.getElem_set]
    split
    · exact h.pc.add 2
    · exact h.stack k hk
  · have hs : s.sp.val = 16 := by omega
    rw [callTo_of_full target hs, callTo_of_full target (h.sp ▸ hs)]
    exact .fault h.pc

theorem returnToCaller (h : SameUpToHighBits s t) :
    SameOutcome (returnToCaller s) (returnToCaller t) := by
  by_cases hs : s.sp.val = 0
  · rw [returnToCaller_of_empty hs, returnToCaller_of_empty (h.sp ▸ hs)]
    exact .fault h.pc
  · have ht : t.sp.val ≠ 0 := h.sp ▸ hs
    rw [returnToCaller_of_ne hs, returnToCaller_of_ne ht]
    refine .next { h with sp := by simp only [h.sp], pc := ?_ }
    simp only [h.sp]
    exact h.stack _ _

/-- Every instruction reads the same operands in the two states and hands them to operations that keep
the agreement. -/
theorem exec (h : SameUpToHighBits s t) (i : Instr) : SameOutcome (exec i s) (exec i t) := by
  cases i with
  | call nnn => exact h.callTo _
  | ret => exact h.returnToCaller
  | jp nnn => exact .next (h.setPc (.refl _))
  | jpV0 nnn =>
    simp only [exec_jpV0, h.getV]
    exact .next (h.setPc (.refl _))
  | seImm | sneImm | seReg | sneReg | skp | sknp =>
    simp only [exec_seImm, exec_sneImm, exec_seReg, exec_sneReg, exec_skp, exec_sknp, h.getV,
      h.keyDown]
    exact .next (h.skipIf _)
  | ldImm | addImm | ldReg | orReg | andReg | xorReg | ldVxDt =>
    simp only [exec_ldImm, exec_addImm, exec_ldReg, exec_orReg, exec_andReg, exec_xorReg,
      exec_ldVxDt, h.getV, h.dt]
    exact .next (h.setV _ _).advance
  | addReg | subReg | shr | subnReg | shl =>
    simp only [exec_addReg, exec_subReg, exec_shr, exec_subnReg, exec_shl, h.getV]
    exact .next (h.setResultAndFlag _ _ _).advance
  | rnd x nn =>
    simp only [exec_rnd, h.drawRandomByte_fst]
    exact .next (h.drawRandomByte_snd.setV _ _).advance
  | ldI nnn => exact .next (h.setI (.refl _)).advance
  | addI x =>
    simp only [exec_addI, h.getV]
    exact .next (h.setI (h.i.add _)).advance
  | ldF x =>
    simp only [exec_ldF, h.getV]
    exact .next (h.setI (.refl _)).advance
  | ldB x =>
    simp only [exec_ldB, h.getV]
    exact .next (h.storeDigits _).advance
  | ldMemVx x => exact .next (h.storeRegs _).advance
  | ldVxMem x => exact .next (h.loadRegs _).advance
  | cls => exact .next ((h.setFb _).setRedraw true).advance
  | drw x y n => exact .next (h.drawAt _ x y n)
  | ldVxK x =>
    simp only [exec_ldVxK, h.key]
    exact .next (h.setWait _ _)
  | ldDtVx x =>
    simp only [exec_ldDtVx, h.getV]
    exact .next (h.setDt _).advance
  | ldStVx x =>
    simp only [exec_ldStVx, h.getV]
    exact .next (h.setSt _).advance

/-- Both states wait for the same register or fetch the same word. -/
theorem step (h : SameUpToHighBits s t) : SameOutcome (step s) (step t) := by
  obtain ⟨r, hw, hs⟩ | ⟨i, hw, hd, hs⟩ | ⟨e, hw, hd, hs⟩ := step_cases s
  · rw [hs, step_of_waiting (h.wait ▸ hw)]
    exact .next (h.awaitKey r)
  · rw [hs, step_of_legal (h.wait ▸ hw) (h.fetch ▸ hd)]
    exact h.exec i
  · rw [hs, step_of_illegal (h.wait ▸ hw) (h.fetch ▸ hd)]
    exact .fault ⟨h.fetch, h.pc⟩

theorem load (h : SameUpToHighBits s t) (bytes : List Byte) :
    SameOutcome (load bytes s) (load bytes t) := by
  unfold Machine.load
  split
  · exact .next ((h.storeBytes bytes loadAddr).setPc (.refl _))
  · exact .fault rfl

theorem setKey (h : SameUpToHighBits s t) (index : Nat) (pressed : Bool) :
    SameOutcome (setKey index pressed s) (setKey index pressed t) := by
  unfold Machine.setKey
  rw [h.key]
  split
  · exact .next (h.setKeys _)
  · exact .fault rfl

theorem refl (s : State) : SameUpToHighBits s s := by
  constructor <;> intros <;> rfl

theorem resetCore (h : SameUpToHighBits s t) :
    SameUpToHighBits (resetCore s) (resetCore t) :=
  { refl State.reset with draws := h.draws }

theorem tickTimers (h : SameUpToHighBits s t) :
    SameUpToHighBits (tickTimers s) (tickTimers t) := by
  simp only [Machine.tickTimers, h.dt, h.st]
  exact (h.setDt _).setSt _

theorem transact (h : SameUpToHighBits s t) (tx : Transaction) :
    SameEnd (transact tx s) (transact tx t) := by
  cases tx with
  | reset => exact ⟨h.resetCore, .inl rfl⟩
  | load bytes => exact (h.load bytes).settle h
  | step => exact h.step.settle h
  | tickTimers =>
    exact ⟨h.tickTimers, .inl (by simp only [Machine.transact, beep, h.st])⟩
  | setKey index pressed => exact (h.setKey index pressed).settle h
  | framebuffer => exact ⟨h, .inl (by simp only [Machine.transact, framebufferView, h.fb])⟩
  | consumeRedrawFlag => exact ⟨h.setRedraw false, .inl (congrArg Response.redraw h.redraw)⟩

end SameUpToHighBits

/-- Settles O58, by the agreement every transaction keeps. -/
theorem highBitsOfAddressesAreInvisible : Obligations.HighBitsOfAddressesAreInvisible :=
  fun tx _ _ h => h.transact tx

end Sys2Proof.Machine
end

section
/-! SUPPORT. What memory reads after the byte accesses and after a register store, and what the next fetch
sees of it (spec/20_memory.md R40 to R43, R53). -/

namespace Sys2Proof.Machine

namespace State

variable (s : State)

theorem memRead_congr_mod {a b : Nat} (h : a % 4096 = b % 4096) : s.memRead a = s.memRead b := by
  rw [← memRead_mod s a, h, memRead_mod]

@[simp] theorem memRead_memWrite_self (a : Nat) (v : Byte) : (s.memWrite a v).memRead a = v := by
  rw [memRead_memWrite, if_pos rfl]

theorem memRead_memWrite_of_ne {a b : Nat} (h : b % 4096 ≠ a % 4096) (v : Byte) :
    (s.memWrite a v).memRead b = s.memRead b := by
  rw [memRead_memWrite, if_neg h]

/-- The two-byte read is big-endian (R42). -/
theorem memRead2_toNat (a : Nat) :
    (s.memRead2 a).toNat = 256 * (s.memRead a).toNat + (s.memRead (a + 1)).toNat := by
  rw [memRead2, wordOfBytes_toNat, Nat.mul_comm]

/-- The fetch after sequential flow reads the two bytes after the instruction: PC wraps at 65536, a
multiple of the 4096 of R40. -/
theorem fetch_advance_toNat : s.advance.fetch.toNat =
    256 * (s.memRead (s.pc.toNat + 2)).toNat + (s.memRead (s.pc.toNat + 3)).toNat := by
  have hpc : s.advance.pc.toNat = (s.pc.toNat + 2) % 65536 := BitVec.toNat_add ..
  have hhigh : s.memRead s.advance.pc.toNat = s.memRead (s.pc.toNat + 2) :=
    s.memRead_congr_mod (by omega)
  have hlow : s.memRead (s.advance.pc.toNat + 1) = s.memRead (s.pc.toNat + 3) :=
    s.memRead_congr_mod (by omega)
  rw [fetch, memRead2_toNat, memRead_advance, memRead_advance, hhigh, hlow]

end State

@[simp] theorem getV_storeRegs (ks : List Reg) (s : State) (x : Reg) :
    (storeRegs ks s).getV x = s.getV x := by
  simp only [State.getV, storeRegs_v]

/-- The last store of a list is one byte write, of the register and at the index of the state before. -/
theorem storeRegs_concat (ks : List Reg) (j : Reg) (s : State) :
    storeRegs (ks ++ [j]) s = (storeRegs ks s).memWrite (s.i.toNat + j.toNat) (s.getV j) :=
  calc storeRegs (ks ++ [j]) s
      = (storeRegs ks s).memWrite ((storeRegs ks s).indexAddr j.toNat) ((storeRegs ks s).getV j) :=
        List.foldl_append
    _ = (storeRegs ks s).memWrite (s.i.toNat + j.toNat) (s.getV j) := by
        rw [State.indexAddr, storeRegs_i, getV_storeRegs]

/-- A stored register is found at its place. A later store does not reach it: 16 successive addresses
differ modulo 4096. -/
theorem memRead_storeRegs_of_mem {ks : List Reg} {k : Reg} (hk : k ∈ ks) (s : State) :
    (storeRegs ks s).memRead (s.i.toNat + k.toNat) = s.getV k := by
  induction ks using List.reverseRecOn with
  | nil => cases hk
  | append_singleton ks j ih =>
    rw [storeRegs_concat]
    by_cases hkj : k = j
    · rw [hkj, State.memRead_memWrite_self]
    · have hks : k ∈ ks := by simpa [hkj] using hk
      have hne : k.toNat ≠ j.toNat := BitVec.toNat_ne.mp hkj
      rw [State.memRead_memWrite_of_ne _ (by omega), ih hks]

/-- Settles O6: a read sees a write exactly where the addresses agree modulo 4096. -/
theorem byteAccessesReduceTheAddress : Obligations.ByteAccessesReduceTheAddress :=
  fun s a _ v =>
    ⟨rfl, s.memRead_memWrite_self a v, fun h => s.memRead_memWrite_of_ne h v, rfl⟩

/-- Settles O7: at 0xFFF the second address is 0x1000, which is 0 modulo 4096. -/
theorem fetchReadsTwoBytesBigEndian : Obligations.FetchReadsTwoBytesBigEndian := by
  intro s a
  refine ⟨s.memRead2_toNat a, ?_⟩
  rintro rfl
  exact s.memRead2_toNat 0xFFF

/-- Settles O39: both bytes the fetch reads are at the places of stored registers. -/
theorem nextFetchSeesTheStore : Obligations.NextFetchSeesTheStore := by
  intro x s
  refine ⟨_, exec_ldMemVx s x, fun k j hk hj hkpc hjpc => ?_⟩
  have hhigh := memRead_storeRegs_of_mem (mem_regsUpTo.mpr hk) s
  have hlow := memRead_storeRegs_of_mem (mem_regsUpTo.mpr hj) s
  rw [State.memRead_congr_mod _ hkpc] at hhigh
  rw [State.memRead_congr_mod _ hjpc] at hlow
  rw [State.fetch_advance_toNat, storeRegs_pc, hhigh, hlow]

end Sys2Proof.Machine
end

section
/-! SUPPORT. The decoder and the encoder undo each other on words, and a word the decoder refuses is of
the class that the refusal names (spec/30_encoding.md R63 to R67). -/

namespace Sys2Proof

/-! ### Decoding after encoding -/

theorem decodeWord_encodeWord (i : Instr) : decodeWord (encodeWord i) = .ok i := by
  cases i with
  | cls | ret => rfl
  | _ => simp [encodeWord, decodeWord, decode8, decodeE, decodeF]

/-- The decoder reads a word's two bytes as that word and leaves what follows. -/
theorem decode_bytesOfWord (op : Word) (rest : List Byte) :
    decode (bytesOfWord op ++ rest) = (decodeWord op).map (fun i => (i, rest)) := by
  rw [bytesOfWord, List.cons_append, List.cons_append, List.nil_append, decode_pair,
    wordOfBytes_bytes]

/-- Settles O11: the decoder reads the two bytes as one word, and reads that word's operands from the
fields the encoder put them in. -/
theorem decodeOfEncodeIsTheInstruction : Obligations.DecodeOfEncodeIsTheInstruction := by
  intro i rest
  rw [encode, decode_bytesOfWord, decodeWord_encodeWord]
  rfl

/-! ### Encoding after decoding -/

section FixedDigits

variable {op : Word} {major : Nibble} (htop : (topNibble op).toNat = major.toNat)
include htop

/-- A word with the fixed top digit is format A's layout of its own address. -/
theorem wordA_eq_self : wordA major (fieldNNN op) = op := by
  rw [← BitVec.eq_of_toNat_eq htop, wordA_fields]

/-- A word with the fixed top digit is format I's layout of its own register and byte. -/
theorem wordI_eq_self {nn : Byte} (hnn : (fieldNN op).toNat = nn.toNat) :
    wordI major (fieldX op) nn = op := by
  rw [← BitVec.eq_of_toNat_eq htop, ← BitVec.eq_of_toNat_eq hnn, wordI_fields]

/-- A word with the fixed first and last digits is format R's layout of its own registers. -/
theorem wordR_eq_self {n : Nibble} (hn : (fieldN op).toNat = n.toNat) :
    wordR major (fieldX op) (fieldY op) n = op := by
  rw [← BitVec.eq_of_toNat_eq htop, ← BitVec.eq_of_toNat_eq hn, wordR_fields]

end FixedDigits

section EncodeOfDecode

variable {w : Word} {i : Instr}

theorem encodeWord_of_decode0 (h : decode0 w = .ok i) : encodeWord i = w := by
  unfold decode0 at h
  split at h <;> cases h
  all_goals exact (BitVec.eq_of_toNat_eq ‹_›).symm

theorem encodeWord_of_decode8 (htop : (topNibble w).toNat = 0x8) (h : decode8 w = .ok i) :
    encodeWord i = w := by
  unfold decode8 at h
  split at h <;> cases h
  all_goals exact wordR_eq_self htop ‹_›

theorem encodeWord_of_decodeE (htop : (topNibble w).toNat = 0xE) (h : decodeE w = .ok i) :
    encodeWord i = w := by
  unfold decodeE at h
  split at h <;> cases h
  all_goals exact wordI_eq_self htop ‹_›

theorem encodeWord_of_decodeF (htop : (topNibble w).toNat = 0xF) (h : decodeF w = .ok i) :
    encodeWord i = w := by
  unfold decodeF at h
  split at h <;> cases h
  all_goals exact wordI_eq_self htop ‹_›

theorem encodeWord_of_decodeWord (h : decodeWord w = .ok i) : encodeWord i = w := by
  unfold decodeWord at h
  have hlt := (topNibble w).isLt
  generalize hd : (topNibble w).toNat = d at h hlt
  match d with
  | 0x0 => exact encodeWord_of_decode0 h
  | 0x1 | 0x2 | 0xA | 0xB => cases h; exact wordA_eq_self hd
  | 0x3 | 0x4 | 0x6 | 0x7 | 0xC => cases h; exact wordI_eq_self hd rfl
  | 0x5 | 0x9 =>
    obtain ⟨hn, h⟩ | ⟨-, h⟩ := ite_eq_iff.mp h <;> cases h
    exact wordR_eq_self hd (congrArg _ hn)
  | 0x8 => exact encodeWord_of_decode8 hd h
  | 0xD => cases h; exact wordR_eq_self hd rfl
  | 0xE => exact encodeWord_of_decodeE hd h
  | 0xF => exact encodeWord_of_decodeF hd h
  | _ + 0x10 => omega

/-- A word decodes to the one instruction it is the encoding of. -/
theorem decodeWord_eq_ok_iff : decodeWord w = .ok i ↔ encodeWord i = w :=
  ⟨encodeWord_of_decodeWord, fun h => h ▸ decodeWord_encodeWord i⟩

end EncodeOfDecode

/-- Settles O12: the fields that the decoder reads and the digits that it checks are all of the word. -/
theorem encodeOfDecodeIsTheWord : Obligations.EncodeOfDecodeIsTheWord :=
  fun _ _ => decodeWord_eq_ok_iff.mp

/-! ### The illegal words -/

/-- The words of a row of the table of illegal words (R66). A word is never too short. -/
def Reject.Covers : Reject → Word → Prop
  | .illegal0NNN, w => w.toNat / 4096 = 0 ∧ w ≠ 0x00E0 ∧ w ≠ 0x00EE
  | .illegal5XYN, w => w.toNat / 4096 = 5 ∧ w.toNat % 16 ≠ 0
  | .illegal8XYN, w => w.toNat / 4096 = 8 ∧ w.toNat % 16 ∈ [0x8, 0x9, 0xA, 0xB, 0xC, 0xD, 0xF]
  | .illegal9XYN, w => w.toNat / 4096 = 9 ∧ w.toNat % 16 ≠ 0
  | .illegalEXNN, w => w.toNat / 4096 = 0xE ∧ w.toNat % 256 ∉ [0x9E, 0xA1]
  | .illegalFXNN, w =>
    w.toNat / 4096 = 0xF ∧ w.toNat % 256 ∉ [0x07, 0x0A, 0x15, 0x18, 0x1E, 0x29, 0x33, 0x55, 0x65]
  | .truncated, _ => False

section Refusals

variable {w : Word} {e : Reject}

theorem decode0_eq_error_iff :
    decode0 w = .error e ↔ e = .illegal0NNN ∧ w ≠ 0x00E0 ∧ w ≠ 0x00EE := by
  unfold decode0
  split <;> simp_all [BitVec.toNat_eq, eq_comm]

theorem decode8_eq_error_iff : decode8 w = .error e ↔
    e = .illegal8XYN ∧ w.toNat % 16 ∈ [0x8, 0x9, 0xA, 0xB, 0xC, 0xD, 0xF] := by
  unfold decode8
  rw [fieldN_toNat]
  have hlt : w.toNat % 16 < 16 := Nat.mod_lt _ (by decide)
  generalize w.toNat % 16 = n at hlt
  interval_cases n <;> simp [eq_comm]

theorem decodeE_eq_error_iff : decodeE w = .error e ↔
    e = .illegalEXNN ∧ w.toNat % 256 ∉ [0x9E, 0xA1] := by
  unfold decodeE
  rw [fieldNN_toNat]
  split <;> simp_all [eq_comm]

theorem decodeF_eq_error_iff : decodeF w = .error e ↔ e = .illegalFXNN ∧
    w.toNat % 256 ∉ [0x07, 0x0A, 0x15, 0x18, 0x1E, 0x29, 0x33, 0x55, 0x65] := by
  unfold decodeF
  rw [fieldNN_toNat]
  split <;> simp_all [eq_comm]

theorem covers_of_decodeWord_eq_error (h : decodeWord w = .error e) : e.Covers w := by
  unfold decodeWord at h
  have hlt := (topNibble w).isLt
  rw [topNibble_toNat] at h hlt
  generalize hd : w.toNat / 4096 = d at h hlt
  match d with
  | 0x0 => obtain ⟨rfl, hw⟩ := decode0_eq_error_iff.mp h; exact ⟨hd, hw⟩
  | 0x8 => obtain ⟨rfl, hw⟩ := decode8_eq_error_iff.mp h; exact ⟨hd, hw⟩
  | 0xE => obtain ⟨rfl, hw⟩ := decodeE_eq_error_iff.mp h; exact ⟨hd, hw⟩
  | 0xF => obtain ⟨rfl, hw⟩ := decodeF_eq_error_iff.mp h; exact ⟨hd, hw⟩
  | 0x5 | 0x9 =>
    obtain ⟨-, h⟩ | ⟨hn, h⟩ := ite_eq_iff.mp h <;> cases h
    exact ⟨hd, fieldN_toNat w ▸ BitVec.toNat_ne.mp hn⟩
  | 0x1 | 0x2 | 0x3 | 0x4 | 0x6 | 0x7 | 0xA | 0xB | 0xC | 0xD => cases h
  | _ + 0x10 => omega

theorem decodeWord_eq_error_of_covers (h : e.Covers w) : decodeWord w = .error e := by
  unfold decodeWord
  rw [topNibble_toNat]
  cases e
  case truncated => cases h
  all_goals
    obtain ⟨hd, hw⟩ := h
    rw [hd]
  case illegal0NNN => exact decode0_eq_error_iff.mpr ⟨rfl, hw⟩
  case illegal8XYN => exact decode8_eq_error_iff.mpr ⟨rfl, hw⟩
  case illegalEXNN => exact decodeE_eq_error_iff.mpr ⟨rfl, hw⟩
  case illegalFXNN => exact decodeF_eq_error_iff.mpr ⟨rfl, hw⟩
  case illegal5XYN | illegal9XYN => exact if_neg (BitVec.toNat_ne.mpr (fieldN_toNat w ▸ hw))

/-- The decoder refuses a word with a reason exactly when it is in that reason's class. -/
theorem decodeWord_eq_error_iff : decodeWord w = .error e ↔ e.Covers w :=
  ⟨covers_of_decodeWord_eq_error, decodeWord_eq_error_of_covers⟩

end Refusals

/-- Settles O15: each class is the one its own reason covers. -/
theorem illegalWordsAreTheSixClasses : Obligations.IllegalWordsAreTheSixClasses :=
  fun _ => ⟨decodeWord_eq_error_iff, decodeWord_eq_error_iff, decodeWord_eq_error_iff,
    decodeWord_eq_error_iff, decodeWord_eq_error_iff, decodeWord_eq_error_iff,
    covers_of_decodeWord_eq_error⟩

/-! ### The rows of the opcode table -/

open Laws.FixedDigits in
/-- Every opcode carries the fixed digits of its row. -/
theorem encodeWord_fixedDigits : ∀ i, Statement i
  | .cls => cls | .ret => ret | .jp a => jp a | .call a => call a | .seImm x b => seImm x b
  | .sneImm x b => sneImm x b | .seReg x y => seReg x y | .ldImm x b => ldImm x b
  | .addImm x b => addImm x b | .ldReg x y => ldReg x y | .orReg x y => orReg x y
  | .andReg x y => andReg x y | .xorReg x y => xorReg x y | .addReg x y => addReg x y
  | .subReg x y => subReg x y | .shr x y => shr x y | .subnReg x y => subnReg x y
  | .shl x y => shl x y | .sneReg x y => sneReg x y | .ldI a => ldI a | .jpV0 a => jpV0 a
  | .rnd x b => rnd x b | .drw x y n => drw x y n | .skp x => skp x | .sknp x => sknp x
  | .ldVxDt x => ldVxDt x | .ldVxK x => ldVxK x | .ldDtVx x => ldDtVx x | .ldStVx x => ldStVx x
  | .addI x => addI x | .ldF x => ldF x | .ldB x => ldB x | .ldMemVx x => ldMemVx x
  | .ldVxMem x => ldVxMem x

section Rows

variable {w v : Word}

theorem toNat_of_and_F000 (h : w &&& 0xF000 = v) : w.toNat / 4096 = v.toNat / 4096 := by
  rw [← wordR_fields w, wordR_and_F000] at h
  rw [← h, ← topNibble_toNat, ← topNibble_toNat, topNibble_wordR]

theorem toNat_of_and_F00F (h : w &&& 0xF00F = v) :
    w.toNat / 4096 = v.toNat / 4096 ∧ w.toNat % 16 = v.toNat % 16 := by
  rw [← wordR_fields w, wordR_and_F00F] at h
  simp only [← h, ← topNibble_toNat, ← fieldN_toNat, topNibble_wordR, fieldN_wordR, and_self]

theorem toNat_of_and_F0FF (h : w &&& 0xF0FF = v) :
    w.toNat / 4096 = v.toNat / 4096 ∧ w.toNat % 256 = v.toNat % 256 := by
  rw [← wordR_fields w, wordR_and_F0FF] at h
  have hv : v.toNat = w.toNat / 4096 * 4096 + w.toNat / 16 % 16 * 16 + w.toNat % 16 := by
    simp [← h, wordR_toNat, topNibble_toNat, fieldY_toNat, fieldN_toNat]
  omega

/-- A word with the digits that some instruction's row fixes is legal: they are all that the decoder
checks. -/
theorem exists_decodeWord_of_fixedDigits (i : Instr)
    (h : w &&& (fixedDigits i).mask = (fixedDigits i).value) : ∃ j, decodeWord w = .ok j := by
  cases i with
  | cls | ret =>
    have hw : w = _ := (BitVec.and_allOnes ..).symm.trans h
    exact ⟨_, congrArg decodeWord hw⟩
  | seReg | sneReg | ldReg | orReg | andReg | xorReg | addReg | subReg | shr | subnReg | shl =>
    obtain ⟨htop, hn⟩ := toNat_of_and_F00F h
    simp [decodeWord, decode8, topNibble_toNat, fieldN_toNat, BitVec.toNat_eq, htop, hn, fixedDigits]
  | skp | sknp | ldVxDt | ldVxK | ldDtVx | ldStVx | addI | ldF | ldB | ldMemVx | ldVxMem =>
    obtain ⟨htop, hnn⟩ := toNat_of_and_F0FF h
    simp [decodeWord, decodeE, decodeF, topNibble_toNat, fieldNN_toNat, htop, hnn, fixedDigits]
  | _ =>
    have htop := toNat_of_and_F000 h
    simp [decodeWord, topNibble_toNat, htop, fixedDigits]

/-- Two rows that ask for different values of a digit that both fix have no word in common. -/
theorem not_match_both_of_common_digit {p q : Word × Word} (h : p.2 &&& q.1 ≠ q.2 &&& p.1) (w : Word) :
    ¬ (w &&& p.1 = p.2 ∧ w &&& q.1 = q.2) := by
  rintro ⟨hp, hq⟩
  apply h
  rw [← hp, ← hq, BitVec.and_assoc, BitVec.and_assoc, BitVec.and_comm p.1]

end Rows

/-- Settles O13: the match column of each row is itself a word of that row, and two rows always ask for
different values of a digit that both fix. -/
theorem decoderAcceptsExactlyTheOpcodeTable : Obligations.DecoderAcceptsExactlyTheOpcodeTable := by
  unfold Obligations.DecoderAcceptsExactlyTheOpcodeTable
  intro table
  have hmem : ∀ i, ((fixedDigits i).mask, (fixedDigits i).value) ∈ table := fun i => by
    cases i <;> simp [table, fixedDigits]
  have hmatch {w i} (h : decodeWord w = .ok i) : w &&& (fixedDigits i).mask = (fixedDigits i).value :=
    encodeWord_of_decodeWord h ▸ encodeWord_fixedDigits i
  have hrow : ∀ row ∈ table, (decodeWord row.2).toOption.map fixedDigits = some ⟨row.1, row.2⟩ :=
    List.map_inj_left.mp rfl
  refine ⟨fun w => ⟨?_, ?_⟩, ?_, fun w i h => ⟨hmem i, hmatch h⟩⟩
  · rintro ⟨i, h⟩
    exact ⟨_, hmem i, hmatch h⟩
  · rintro ⟨row, hin, hw⟩
    obtain ⟨i, -, hi⟩ := Option.map_eq_some_iff.mp (hrow row hin)
    exact exists_decodeWord_of_fixedDigits i (by rw [hi]; exact hw)
  · have hne : table.Pairwise (fun p q => p.2 &&& q.1 ≠ q.2 &&& p.1) := by decide
    exact hne.imp fun h => not_match_both_of_common_digit h

/-- Settles O14: 34 fixed words, by evaluation. -/
theorem specWordsDecodeToTheirInstructions : Obligations.SpecWordsDecodeToTheirInstructions :=
  ⟨by decide, by decide, by decide⟩

end Sys2Proof
end

section
/-! SUPPORT. What a step runs: the word at PC, decoded (spec/30_encoding.md R60, R67), and the word
that `withFetchWord` places there (log entry 6). -/

namespace Sys2Proof.Machine

/-- The step decodes the word that the two bytes at PC form. -/
theorem decode_bytes_at_pc (s : State) (rest : List Byte) :
    decode (s.memRead s.pc.toNat :: s.memRead (s.pc.toNat + 1) :: rest) =
      (decodeWord s.fetch).map (fun i => (i, rest)) :=
  decode_pair ..

/-- Settles O9: decoding the two bytes at PC is decoding the word the step fetches. -/
theorem stepRunsTheDecodedInstruction : Obligations.StepRunsTheDecodedInstruction := by
  refine ⟨fun s r h => step_of_waiting h, fun s i hw h => ?_, fun s e hw h => ?_, fun s f h => ?_⟩
  · rw [decode_bytes_at_pc] at h
    cases hd : decodeWord s.fetch with
    | ok j => rw [hd] at h; cases h; exact step_of_legal hw hd
    | error e => rw [hd] at h; cases h
  · rw [decode_bytes_at_pc] at h
    cases hd : decodeWord s.fetch with
    | ok j => rw [hd] at h; cases h
    | error e' => exact step_of_illegal hw hd
  · rw [transact, h, settle]

/-- Settles O16: such a word is of the class 0NNN of illegal words. -/
theorem machineRoutineCallIsDecodeError : Obligations.MachineRoutineCallIsDecodeError := by
  rintro s w hwait rfl htop hcls hret
  exact step_of_illegal hwait (decodeWord_eq_error_of_covers (e := .illegal0NNN) ⟨htop, hcls, hret⟩)

theorem decodeTableWord_eq_some_iff {w : Nat} {i : Instr} :
    decodeTableWord 16 w = some i ↔ decodeWord (tableWord 16 w) = .ok i := by
  have hd := decode_bytesOfWord (tableWord 16 w) []
  rw [List.append_nil] at hd
  rw [decodeTableWord, if_pos (by decide), hd]
  cases decodeWord (tableWord 16 w) <;> simp [Except.map]

/-- Off the two bytes of the fetch, placing a word changes no byte. -/
theorem memRead_withFetchWord_of_ne {s : State} {a : Nat} (nbits w : Nat)
    (hhigh : a % 4096 ≠ s.pc.toNat % 4096) (hlow : a % 4096 ≠ (s.pc.toNat + 1) % 4096) :
    (s.withFetchWord nbits w).memRead a = s.memRead a := by
  have h := State.memRead_memWrite_of_ne (s.memWrite s.pc.toNat ((tableWord nbits w).extractLsb' 8 8))
    hlow ((tableWord nbits w).extractLsb' 0 8)
  rw [State.memRead_memWrite_of_ne _ hhigh] at h
  exact h

/-- The word placed at PC is the word fetched: its two bytes have different addresses. -/
theorem fetch_withFetchWord (s : State) (nbits w : Nat) :
    (s.withFetchWord nbits w).fetch = tableWord nbits w := by
  have hlow : (s.withFetchWord nbits w).memRead (s.pc.toNat + 1) = (tableWord nbits w).extractLsb' 0 8 :=
    State.memRead_memWrite_self ..
  have hhigh : (s.withFetchWord nbits w).memRead s.pc.toNat = (tableWord nbits w).extractLsb' 8 8 :=
    (State.memRead_memWrite_of_ne _ (by omega) _).trans (State.memRead_memWrite_self ..)
  show wordOfBytes ((s.withFetchWord nbits w).memRead s.pc.toNat)
    ((s.withFetchWord nbits w).memRead (s.pc.toNat + 1)) = _
  rw [hlow, hhigh, wordOfBytes_bytes]

/-- Settles O10: the word fetched is the one placed, and `withFetchWord` leaves no wait pending. -/
theorem placedWordIsTheOneTheStepRuns : Obligations.PlacedWordIsTheOneTheStepRuns := by
  intro s w i h
  have hd : decodeWord (s.withFetchWord 16 w).fetch = .ok i := by
    rw [fetch_withFetchWord, decodeTableWord_eq_some_iff.mp h]
  refine ⟨step_of_legal rfl hd, fun a ha hhigh hlow => ?_, rfl⟩
  exact memRead_withFetchWord_of_ne 16 w (by omega) (by omega)

end Sys2Proof.Machine
end

section
/-! SUPPORT. Control transfer (spec/40_flow.md): what RET, JP, CALL, the skips and JP V0 do to the state, in
the numbers of the spec, and what a call followed by its return leaves. -/

namespace Sys2Proof.Machine

/-! ### Jumps -/

/-- Settles O20: the 16-bit target is the address itself. -/
theorem jumpSetsPcToAddress : Obligations.JumpSetsPcToAddress := by
  intro nnn s
  refine ⟨decodeWord_encodeWord (.jp nnn), ?_⟩
  rw [exec_jp, zextAddr_eq, State.setPc]

theorem exec_jpV0_eq_ofNat (nnn : Addr) (s : State) :
    exec (.jpV0 nnn) s = .next (s.setPc (BitVec.ofNat 16 ((s.getV 0).toNat + nnn.toNat))) := by
  rw [exec_jpV0, zextByte_eq, zextAddr_eq, BitVec.ofNat_add]

/-- Once PC is `n` with memory as before, the fetch reads at `n` modulo 4096: PC wraps at 65536, a multiple of
the 4096 of R40. -/
theorem fetch_of_pc_eq_ofNat {s t : State} {n : Nat} (hmem : t.mem = s.mem)
    (hpc : t.pc = BitVec.ofNat 16 n) : t.fetch = s.memRead2 (n % 4096) := by
  have hn : t.pc.toNat = n % 65536 := hpc ▸ BitVec.toNat_ofNat ..
  have hhigh : s.memRead t.pc.toNat = s.memRead (n % 4096) := s.memRead_congr_mod (by omega)
  have hlow : s.memRead (t.pc.toNat + 1) = s.memRead (n % 4096 + 1) := s.memRead_congr_mod (by omega)
  rw [State.fetch, State.memRead2, State.memRead_congr hmem, State.memRead_congr hmem, hhigh, hlow,
    State.memRead2]

/-- Settles O24: a byte and a 12-bit address sum to at most 0xFF + 0xFFF, which 16 bits hold. -/
theorem jumpWithOffsetAddsV0 : Obligations.JumpWithOffsetAddsV0 := by
  intro nnn s
  refine ⟨decodeWord_encodeWord (.jpV0 nnn), exec_jpV0_eq_ofNat nnn s, by omega, fun t h => ?_⟩
  rw [exec_jpV0_eq_ofNat] at h
  cases h
  exact fetch_of_pc_eq_ofNat rfl rfl

/-! ### The stack -/

/-- The state a call leaves: the return address above the entries that were there, PC at the target. -/
def State.pushAndJump (s : State) (h : s.sp.val < 16) (ret target : Word) : State :=
  { s with stack := s.stack.set s.sp.val ret h, sp := ⟨s.sp.val + 1, Nat.succ_lt_succ h⟩, pc := target }

theorem exec_call_of_lt {s : State} (nnn : Addr) (h : s.sp.val < 16) :
    exec (.call nnn) s = .next (s.pushAndJump h (s.pcPlus 2) (BitVec.ofNat 16 nnn.toNat)) := by
  rw [exec_call, callTo_of_lt _ h, zextAddr_eq, State.pcPlus_eq]
  rfl

/-- Settles O21: below 16 entries CALL pushes and jumps, at 16 it raises. -/
theorem callPushesOrOverflows : Obligations.CallPushesOrOverflows :=
  fun nnn _ => ⟨decodeWord_encodeWord (.call nnn), callTo_of_full _, exec_call_of_lt nnn⟩

theorem exec_ret_of_sp_eq_succ {s : State} {k : Nat} (hk : k < 16) (h : s.sp.val = k + 1) :
    exec .ret s = .next { s with sp := ⟨k, Nat.lt_succ_of_lt hk⟩, pc := s.stack[k] } := by
  rw [exec_ret, returnToCaller_of_ne (by omega)]
  simp only [h, Nat.add_sub_cancel]

/-- Settles O19: with no entry RET raises, with k + 1 it pops entry k. -/
theorem returnPopsOrUnderflows : Obligations.ReturnPopsOrUnderflows :=
  ⟨rfl, fun _ => returnToCaller_of_empty, fun _ _ => exec_ret_of_sp_eq_succ⟩

/-- A return pops what the call pushed; the entry keeps its bits (R100). -/
theorem exec_ret_pushAndJump {s : State} (h : s.sp.val < 16) (ret target : Word) :
    exec .ret (s.pushAndJump h ret target) =
      .next { s with stack := s.stack.set s.sp.val ret h, pc := ret } := by
  rw [exec_ret_of_sp_eq_succ h rfl]
  simp only [State.pushAndJump, Vector.getElem_set_self]

/-- The target of a call is below 4096, so the fetch after it reads there. -/
theorem fetch_pushAndJump {s : State} (h : s.sp.val < 16) (ret : Word) (nnn : Addr) :
    (s.pushAndJump h ret (BitVec.ofNat 16 nnn.toNat)).fetch = s.memRead2 nnn.toNat := by
  have hfetch : (s.pushAndJump h ret (BitVec.ofNat 16 nnn.toNat)).fetch = s.memRead2 (nnn.toNat % 4096) :=
    fetch_of_pc_eq_ofNat rfl rfl
  rwa [Nat.mod_eq_of_lt nnn.isLt] at hfetch

/-- Settles O25: the first step runs the call, after which the word fetched is the return, which pops the
entry that the call pushed. -/
theorem callThenReturnComesBack : Obligations.CallThenReturnComesBack := by
  intro s nnn hwait hsp hcall hret
  have hcallStep := (step_of_legal hwait hcall).trans (exec_call_of_lt nnn hsp)
  have hlegal : decodeWord (s.pushAndJump hsp (s.pcPlus 2) (BitVec.ofNat 16 nnn.toNat)).fetch =
      .ok .ret := by
    rw [fetch_pushAndJump, hret]
    rfl
  have hretStep := (step_of_legal (s := s.pushAndJump ..) hwait hlegal).trans (exec_ret_pushAndJump hsp ..)
  exact ⟨_, _, hcallStep, hretStep, rfl, fun k hk hne => Vector.getElem_set_ne hsp hk hne.symm⟩

/-! ### Skips -/

/-- A skip on equal bytes compares their unsigned values. -/
theorem skipIf_beq (s : State) (a b : Byte) :
    s.skipIf (a == b) = { s with pc := if a.toNat = b.toNat then s.pcPlus 4 else s.pcPlus 2 } := by
  simp only [State.skipIf_eq_pcPlus, beq_iff_eq, BitVec.toNat_inj]

/-- A skip on different bytes compares their unsigned values. -/
theorem skipIf_bne (s : State) (a b : Byte) :
    s.skipIf (a != b) = { s with pc := if a.toNat ≠ b.toNat then s.pcPlus 4 else s.pcPlus 2 } := by
  simp only [State.skipIf_eq_pcPlus, bne_iff_ne, ne_eq, BitVec.toNat_inj]

/-- Settles O22: both skips are conditional on the comparison of two bytes. -/
theorem immediateSkipsCompareUnsigned : Obligations.ImmediateSkipsCompareUnsigned := by
  intro x nn s
  refine ⟨decodeWord_encodeWord (.seImm x nn), decodeWord_encodeWord (.sneImm x nn), ?_, ?_⟩
  · rw [exec_seImm, skipIf_beq]
  · rw [exec_sneImm, skipIf_bne]

/-- Settles O23: a word with another last digit is in the illegal class of its top digit (R66). -/
theorem registerSkipsCompareUnsigned : Obligations.RegisterSkipsCompareUnsigned := by
  intro x y s
  refine ⟨decodeWord_encodeWord (.seReg x y), decodeWord_encodeWord (.sneReg x y), fun n hn => ?_, ?_, ?_⟩
  · have hdigits (op : Nibble) : (wordR op x y n).toNat / 4096 = op.toNat ∧
        (wordR op x y n).toNat % 16 ≠ 0 := by
      have hlast : n.toNat ≠ 0 := BitVec.toNat_ne.mp hn
      rw [wordR_toNat]
      omega
    exact ⟨decodeWord_eq_error_of_covers (e := .illegal5XYN) (hdigits 5),
      decodeWord_eq_error_of_covers (e := .illegal9XYN) (hdigits 9)⟩
  · rw [exec_seReg, skipIf_beq]
  · rw [exec_sneReg, skipIf_bne]

end Sys2Proof.Machine
end

section
/-! SUPPORT. Register and ALU instructions (spec/41_alu.md): results and flags in the numbers of the spec, and
what each instruction does to the state. -/

namespace Sys2Proof.Machine

/-! ### The next state -/

theorem advance_setV (s : State) (x : Reg) (b : Byte) :
    (s.setV x b).advance = { s.setV x b with pc := s.pcPlus 2 } :=
  State.advance_eq _

/-- The flag is written last, so it is what VF holds even when the result went to VF (R120). -/
theorem advance_setResultAndFlag (s : State) (x : Reg) (result : Byte) (f : Bool) :
    (s.setResultAndFlag x result f).advance =
      { (s.setV x result).setV 0xF (flagByte f) with pc := s.pcPlus 2 } :=
  State.advance_eq _

/-! ### Results as numbers -/

section Results

variable (a b : Byte)

theorem add_eq_ofNat_mod : a + b = BitVec.ofNat 8 ((a.toNat + b.toNat) % 256) :=
  BitVec.eq_of_toNat_eq (by simp)

theorem sub_eq_ofInt_emod : a - b = BitVec.ofInt 8 ((a.toNat - b.toNat : Int) % 256) := by
  apply BitVec.eq_of_toNat_eq
  rw [BitVec.toNat_sub, BitVec.toNat_ofInt]
  omega

theorem ushiftRight_one_eq_ofNat_div : a >>> 1 = BitVec.ofNat 8 (a.toNat / 2) := by
  apply BitVec.eq_of_toNat_eq
  rw [BitVec.toNat_ushiftRight, Nat.shiftRight_eq_div_pow, BitVec.toNat_ofNat]
  omega

theorem shiftLeft_one_eq_ofNat_mod : a <<< 1 = BitVec.ofNat 8 (a.toNat * 2 % 256) := by
  apply BitVec.eq_of_toNat_eq
  rw [BitVec.toNat_shiftLeft, Nat.shiftLeft_eq, BitVec.toNat_ofNat]
  omega

/-! ### Flags as numbers -/

theorem flagByte_carryOut :
    flagByte (carryOut a b) = if a.toNat + b.toNat > 255 then 1 else 0 := by
  simp only [flagByte, carryOut, decide_eq_true_eq]

theorem flagByte_noBorrow : flagByte (noBorrow a b) = if a.toNat ≥ b.toNat then 1 else 0 := by
  simp only [flagByte, noBorrow, decide_eq_true_eq]

/-- A flag that holds a bit of a byte is that bit's value. -/
theorem flagByte_getLsbD (k : Nat) :
    flagByte (a.getLsbD k) = BitVec.ofNat 8 (a.toNat / 2 ^ k % 2) := by
  have hbit : a.getLsbD k = decide (a.toNat / 2 ^ k % 2 = 1) := Nat.testBit_eq_decide_div_mod_eq
  rw [hbit, flagByte]
  obtain h | h := Nat.mod_two_eq_zero_or_one (a.toNat / 2 ^ k) <;> simp [h]

theorem flagByte_lowBit : flagByte (lowBit a) = BitVec.ofNat 8 (a.toNat % 2) := by
  rw [lowBit, flagByte_getLsbD, pow_zero, Nat.div_one]

/-- Above bit 7 a byte has no bits, so the quotient by 128 is that bit. -/
theorem flagByte_highBit : flagByte (highBit a) = BitVec.ofNat 8 (a.toNat / 128) := by
  have hquot : a.toNat / 2 ^ 7 % 2 = a.toNat / 128 := by omega
  rw [highBit, flagByte_getLsbD, hquot]

end Results

/-! ### Loads, immediate addition and logic: one register written -/

/-- Settles O26: the byte written is the immediate, or the source register's. -/
theorem loadImmediateAndCopy : Obligations.LoadImmediateAndCopy := by
  intro x y nn s
  refine ⟨decodeWord_encodeWord (.ldImm x nn), decodeWord_encodeWord (.ldReg x y), ?_, ?_⟩
  · rw [exec_ldImm, advance_setV]
  · rw [exec_ldReg, advance_setV]

/-- Settles O27: addition of bytes is addition modulo 256. -/
theorem addImmediateWrapsWithoutFlag : Obligations.AddImmediateWrapsWithoutFlag := by
  intro x nn s
  refine ⟨decodeWord_encodeWord (.addImm x nn), ?_⟩
  rw [exec_addImm, advance_setV, add_eq_ofNat_mod]

/-- Settles O28: the result of each is the bitwise operation on the two bytes. -/
theorem logicOperationsAreBitwise : Obligations.LogicOperationsAreBitwise := by
  intro x y s
  refine ⟨decodeWord_encodeWord (.orReg x y), decodeWord_encodeWord (.andReg x y),
    decodeWord_encodeWord (.xorReg x y),
    ⟨s.getV x ||| s.getV y, fun _ _ => BitVec.getLsbD_or, ?_⟩,
    ⟨s.getV x &&& s.getV y, fun _ _ => BitVec.getLsbD_and, ?_⟩,
    ⟨s.getV x ^^^ s.getV y, fun _ _ => BitVec.getLsbD_xor, ?_⟩⟩
  · rw [exec_orReg, advance_setV]
  · rw [exec_andReg, advance_setV]
  · rw [exec_xorReg, advance_setV]

/-- Settles O32: the byte drawn is the one at the draw counter, and the mask clears the bits it lacks. -/
theorem randomByteUnderMask : Obligations.RandomByteUnderMask := by
  intro x nn s
  refine ⟨decodeWord_encodeWord (.rnd x nn), Config.randomByte s.draws, ?_, fun k hk => ?_⟩
  · rw [exec_rnd, advance_setV]
    rfl
  · rw [BitVec.getLsbD_and, hk, Bool.and_false]

/-! ### Arithmetic and shifts: the result, then the flag -/

/-- Settles O29: result and carry are both computed from the operands before either is written. -/
theorem addSetsCarryInVF : Obligations.AddSetsCarryInVF := by
  intro x y s
  refine ⟨decodeWord_encodeWord (.addReg x y), ?_⟩
  rw [exec_addReg, advance_setResultAndFlag, add_eq_ofNat_mod, flagByte_carryOut]

/-- Settles O30: SUBN is SUB with the operands exchanged. -/
theorem subtractionsSetNotBorrowInVF : Obligations.SubtractionsSetNotBorrowInVF := by
  intro x y s
  refine ⟨decodeWord_encodeWord (.subReg x y), decodeWord_encodeWord (.subnReg x y), ?_, ?_⟩
  · rw [exec_subReg, advance_setResultAndFlag, sub_eq_ofInt_emod, flagByte_noBorrow]
  · rw [exec_subnReg, advance_setResultAndFlag, sub_eq_ofInt_emod, flagByte_noBorrow]

/-- Settles O31: the bit moved out is the remainder of the halving, or the quotient by 128. -/
theorem shiftsMoveOneBitIntoVF : Obligations.ShiftsMoveOneBitIntoVF := by
  intro x y s
  refine ⟨decodeWord_encodeWord (.shr x y), decodeWord_encodeWord (.shl x y), ?_, ?_⟩
  · rw [exec_shr, advance_setResultAndFlag, ushiftRight_one_eq_ofNat_div, flagByte_lowBit]
  · rw [exec_shl, advance_setResultAndFlag, shiftLeft_one_eq_ofNat_mod, flagByte_highBit]

end Sys2Proof.Machine
end

section
/-! SUPPORT. Index register and memory instructions (spec/42_index_memory.md): what the writers of `I`
compute, and what the stores and the loads at `I` leave in memory and in the registers. -/

namespace Sys2Proof.Machine

/-! ### Writers of the index register -/

theorem advance_setI (s : State) (w : Word) :
    (s.setI w).advance = { s with i := w, pc := s.pcPlus 2 } :=
  State.advance_eq _

/-- A byte is added to 16 bits modulo 65536 (R141). -/
theorem add_zextByte_eq_ofNat_mod (w : Word) (b : Byte) :
    w + zextByte b = BitVec.ofNat 16 ((w.toNat + b.toNat) % 65536) := by
  apply BitVec.eq_of_toNat_eq
  rw [zextByte_eq, BitVec.toNat_add, BitVec.toNat_ofNat, BitVec.toNat_ofNat]
  omega

/-- The font stands at address 0, five bytes a glyph (R142). -/
theorem glyphAddr_lowNibble (b : Byte) :
    glyphAddr (lowNibble b) = BitVec.ofNat 16 (5 * (b.toNat % 16)) := by
  rw [glyphAddr, lowNibble_eq, fontBase, glyphBytes, Nat.zero_add]

/-- Settles O34: each writes I and PC alone, I with the number of its rule. -/
theorem indexRegisterWriters : Obligations.IndexRegisterWriters := by
  intro nnn x s
  refine ⟨decodeWord_encodeWord (.ldI nnn), decodeWord_encodeWord (.addI x),
    decodeWord_encodeWord (.ldF x), ?_, ?_, ?_⟩
  · rw [exec_ldI, advance_setI, zextAddr_eq]
  · rw [exec_addI, advance_setI, add_zextByte_eq_ofNat_mod]
  · rw [exec_ldF, advance_setI, glyphAddr_lowNibble]

/-! ### Decimal digits -/

theorem hundreds_toNat (b : Byte) : (hundreds b).toNat = b.toNat / 100 := by
  rw [hundreds, BitVec.toNat_ofNat]
  omega

theorem tens_toNat (b : Byte) : (tens b).toNat = b.toNat / 10 % 10 := by
  rw [tens, BitVec.toNat_ofNat]
  omega

theorem ones_toNat (b : Byte) : (ones b).toNat = b.toNat % 10 := by
  rw [ones, BitVec.toNat_ofNat]
  omega

/-- What memory reads after the three digit stores, the last store first. -/
theorem memRead_storeDigits (b : Byte) (s : State) (a : Nat) :
    (storeDigits b s).memRead a =
      if a % 4096 = (s.i.toNat + 2) % 4096 then ones b
      else if a % 4096 = (s.i.toNat + 1) % 4096 then tens b
      else if a % 4096 = s.i.toNat % 4096 then hundreds b
      else s.memRead a := by
  simp only [storeDigits, State.memRead_memWrite, State.indexAddr, Nat.add_zero]

/-- Settles O35: three successive addresses differ modulo 4096, so no digit is stored over another. -/
theorem decimalDigitsAreStored : Obligations.DecimalDigitsAreStored := by
  intro x s
  have hread := memRead_storeDigits (s.getV x) s
  refine ⟨decodeWord_encodeWord (.ldB x), _, exec_ldB s x, ?_, ?_, ?_, fun a ha hne => ?_,
    (congrArg State.advance (storeDigits_frame ..)).trans (State.advance_eq _)⟩
  · rw [State.memRead_advance, hread, if_neg (by omega), if_neg (by omega), if_pos rfl, hundreds_toNat]
  · rw [State.memRead_advance, hread, if_neg (by omega), if_pos rfl, tens_toNat]
  · rw [State.memRead_advance, hread, if_pos rfl, ones_toNat]
  · have h0 := hne 0 (by decide)
    have h1 := hne 1 (by decide)
    have h2 := hne 2 (by decide)
    rw [State.memRead_advance, hread, if_neg (by omega), if_neg (by omega), if_neg (by omega)]

/-! ### Register ranges -/

/-- Storing registers changes no byte but those at the places of the registers stored. -/
theorem memRead_storeRegs_of_forall_ne {ks : List Reg} {s : State} {a : Nat}
    (h : ∀ k ∈ ks, a % 4096 ≠ (s.i.toNat + k.toNat) % 4096) :
    (storeRegs ks s).memRead a = s.memRead a := by
  induction ks using List.reverseRecOn with
  | nil => rfl
  | append_singleton ks j ih =>
    obtain ⟨hks, hj⟩ := List.forall_mem_append.mp h
    rw [storeRegs_concat, State.memRead_memWrite_of_ne _ (hj j (List.mem_singleton_self j)), ih hks]

/-- Settles O36: a byte off the range is kept by every store of it. -/
theorem registersAreStoredAtIndex : Obligations.RegistersAreStoredAtIndex := by
  intro x s
  refine ⟨decodeWord_encodeWord (.ldMemVx x), _, exec_ldMemVx s x, fun k hk => ?_, fun a ha hne => ?_,
    (congrArg State.advance (storeRegs_frame ..)).trans (State.advance_eq _)⟩
  · exact memRead_storeRegs_of_mem (mem_regsUpTo.mpr hk) s
  · refine memRead_storeRegs_of_forall_ne fun k hk => ?_
    rw [Nat.mod_eq_of_lt ha]
    exact hne k (mem_regsUpTo.mp hk)

/-- A loaded register holds the byte at its place: loads change neither memory nor the index, so it does not
matter which loads came before. -/
theorem getV_loadRegs_of_mem {ks : List Reg} {k : Reg} (hk : k ∈ ks) (s : State) :
    (loadRegs ks s).getV k = s.memRead (s.i.toNat + k.toNat) := by
  induction ks generalizing s with
  | nil => cases hk
  | cons j ks ih =>
    by_cases hks : k ∈ ks
    · exact ih hks (s.setV j _)
    · obtain rfl : k = j := (List.mem_cons.mp hk).resolve_right hks
      calc (loadRegs (k :: ks) s).getV k
          = (s.setV k (s.memRead (s.i.toNat + k.toNat))).getV k := getV_loadRegs_of_notMem hks _
        _ = s.memRead (s.i.toNat + k.toNat) := by rw [State.getV_setV, if_pos rfl]

/-- Settles O37: the registers loaded are exactly those of the range. -/
theorem registersAreLoadedFromIndex : Obligations.RegistersAreLoadedFromIndex := by
  intro x s
  refine ⟨decodeWord_encodeWord (.ldVxMem x), _, exec_ldVxMem s x, fun k hk => ?_, fun k hk => ?_,
    (congrArg State.advance (loadRegs_frame ..)).trans (State.advance_eq _)⟩
  · exact getV_loadRegs_of_mem (mem_regsUpTo.mpr hk) s
  · exact getV_loadRegs_of_notMem (mem_regsUpTo.not.mpr (Nat.not_le.mpr hk)) s

/-- Settles O38: the load reads, at the same index in the same memory, the places the store wrote. -/
theorem storedRegistersLoadBack : Obligations.StoredRegistersLoadBack := by
  intro x s t u w hstore hmem hi hload k hk
  obtain rfl := Host.Outcome.next.inj hstore
  obtain rfl := Host.Outcome.next.inj hload
  have hindex : u.i = s.i := hi.trans (storeRegs_i ..)
  have hrange : k ∈ regsUpTo x := mem_regsUpTo.mpr hk
  calc (loadRegs (regsUpTo x) u).getV k
      = u.memRead (u.i.toNat + k.toNat) := getV_loadRegs_of_mem hrange u
    _ = (storeRegs (regsUpTo x) s).memRead (s.i.toNat + k.toNat) := by
        rw [hindex]
        exact State.memRead_congr hmem _
    _ = s.getV k := memRead_storeRegs_of_mem hrange s

end Sys2Proof.Machine
end

section
/-! SUPPORT. Display instructions (spec/43_display.md): what CLS leaves, which cells the sprite engine inverts
and when it collides, and what a second draw of the same sprite does. -/

namespace Sys2Proof.Machine

/-! ### CLS -/

/-- Settles O40: the screen written is the blank one, whatever stood there. -/
theorem clearScreenBlanksEveryCell : Obligations.ClearScreenBlanksEveryCell :=
  ⟨rfl, fun s => ⟨_, exec_cls s, fun x y _ _ => pixel_blankScreen x y, State.advance_eq _⟩⟩

/-! ### Inverting a set of cells -/

/-- From canvas `c` to canvas `d` exactly the cells of `P` are inverted, each once, and a collision is noted
when one of them was 1 (R152). -/
structure Inverts (P : Nat → Nat → Prop) (c d : Canvas) : Prop where
  inverted : ∀ x y, P x y → pixel d.fb x y = !pixel c.fb x y
  kept : ∀ x y, ¬ P x y → pixel d.fb x y = pixel c.fb x y
  coll : d.coll = true ↔ c.coll = true ∨ ∃ x y, P x y ∧ pixel c.fb x y = true

namespace Inverts

variable {P Q : Nat → Nat → Prop} {c d e : Canvas}

theorem of_iff (h : Inverts P c d) (hPQ : ∀ x y, P x y ↔ Q x y) : Inverts Q c d := by
  obtain rfl : P = Q := funext₂ fun x y => propext (hPQ x y)
  exact h

/-- A canvas left alone has no cell inverted. -/
theorem refl_of_empty (hP : ∀ x y, ¬ P x y) : Inverts P c c where
  inverted x y hxy := absurd hxy (hP x y)
  kept _ _ _ := rfl
  coll := by simp [hP]

/-- Inverting one set and then another, disjoint from it, inverts both: no cell is touched twice, so the
second collides only with what was there at first (R152 (c)). -/
theorem trans (h : Inverts P c d) (h' : Inverts Q d e) (hdisj : ∀ x y, P x y → ¬ Q x y) :
    Inverts (fun x y => P x y ∨ Q x y) c e where
  inverted x y := by
    rintro (hP | hQ)
    · rw [h'.kept x y (hdisj x y hP), h.inverted x y hP]
    · rw [h'.inverted x y hQ, h.kept x y fun hP => hdisj x y hP hQ]
  kept x y hxy := by
    obtain ⟨hP, hQ⟩ := not_or.mp hxy
    rw [h'.kept x y hQ, h.kept x y hP]
  coll := by
    have hQ : (∃ x y, Q x y ∧ pixel d.fb x y = true) ↔ ∃ x y, Q x y ∧ pixel c.fb x y = true :=
      exists₂_congr fun x y => and_congr_right fun hQ => by rw [h.kept x y fun hP => hdisj x y hP hQ]
    simp only [h'.coll, h.coll, hQ, or_and_right, exists_or, or_assoc]

/-- Inverting under a condition inverts the cells for which it holds as well. -/
theorem ite (h : Inverts P c d) (b : Bool) :
    Inverts (fun x y => b = true ∧ P x y) c (if b then d else c) := by
  cases b
  · exact refl_of_empty fun _ _ hxy => Bool.false_ne_true hxy.1
  · exact h.of_iff fun _ _ => (and_iff_right rfl).symm

/-- A loop whose rounds invert disjoint sets inverts their union. -/
theorem foldl_range {S : Nat → Nat → Nat → Prop} {f : Canvas → Nat → Canvas} {n : Nat}
    (hf : ∀ k < n, ∀ c, Inverts (S k) c (f c k))
    (hdisj : ∀ k < n, ∀ j < k, ∀ x y, S j x y → ¬ S k x y) (c : Canvas) :
    Inverts (fun x y => ∃ k < n, S k x y) c ((List.range n).foldl f c) := by
  induction n with
  | zero => exact refl_of_empty fun _ _ ⟨_, hk, _⟩ => Nat.not_lt_zero _ hk
  | succ n ih =>
    have hfirst := ih (fun k hk => hf k (by omega)) (fun k hk => hdisj k (by omega))
    have hlast := hf n n.lt_succ_self ((List.range n).foldl f c)
    rw [List.range_succ, List.foldl_append]
    refine (hfirst.trans hlast fun x y ⟨j, hj, hS⟩ => hdisj n n.lt_succ_self j hj x y hS).of_iff
      fun x y => ?_
    exact Nat.exists_lt_succ_right.symm

/-- Inverting the same cells again restores the framebuffer. -/
theorem fb_eq_of_twice {b : Bool} (h : Inverts P c d) (h' : Inverts P ⟨d.fb, b⟩ e) : e.fb = c.fb := by
  refine framebuffer_ext fun x y => ?_
  by_cases hP : P x y
  · rw [h'.inverted x y hP, h.inverted x y hP, Bool.not_not]
  · rw [h'.kept x y hP, h.kept x y hP]

/-- Inverting the same cells again collides exactly when one of them was 0 at first. -/
theorem coll_iff_of_twice (h : Inverts P c d) (h' : Inverts P ⟨d.fb, false⟩ e) :
    e.coll = true ↔ ∃ x y, P x y ∧ pixel c.fb x y = false := by
  have hset : (∃ x y, P x y ∧ pixel d.fb x y = true) ↔ ∃ x y, P x y ∧ pixel c.fb x y = false :=
    exists₂_congr fun x y => and_congr_right fun hP => by rw [h.inverted x y hP, Bool.not_eq_true']
  simpa only [Bool.false_eq_true, false_or, hset] using h'.coll

end Inverts

/-! ### The cells the sprite engine inverts -/

/-- Under `WRAP` every raw position is drawn, at its remainders (R151). -/
theorem cellAt_wrap_eq_some_iff {px py x y : Nat} :
    cellAt .wrap px py = some (x, y) ↔ px % 64 = x ∧ py % 32 = y := by
  unfold cellAt
  split
  · simp only [Option.some.injEq, Prod.mk.injEq]
    omega
  · simp only [Option.some.injEq, Prod.mk.injEq]

/-- Under `CLIP` a raw position is drawn where it is, if it lies inside the framebuffer (R151). -/
theorem cellAt_clip_eq_some_iff {px py x y : Nat} :
    cellAt .clip px py = some (x, y) ↔ px = x ∧ py = y ∧ x < 64 ∧ y < 32 := by
  unfold cellAt
  split
  · simp only [Option.some.injEq, Prod.mk.injEq]
    omega
  · simp only [reduceCtorEq, false_iff]
    omega

/-- Two raw positions drawn at one cell agree modulo the size of the framebuffer. -/
theorem mod_eq_of_cellAt_eq_some {policy : EdgePolicy} {px py px' py' x y : Nat}
    (h : cellAt policy px py = some (x, y)) (h' : cellAt policy px' py' = some (x, y)) :
    px % 64 = px' % 64 ∧ py % 32 = py' % 32 := by
  cases policy with
  | wrap =>
    rw [cellAt_wrap_eq_some_iff] at h h'
    omega
  | clip =>
    rw [cellAt_clip_eq_some_iff] at h h'
    omega

/-- A cell is covered when it is inside the framebuffer and some sprite bit of 1 is drawn at it. -/
theorem exists_cellAt_eq_some_iff_spriteCovers {policy : EdgePolicy} {x0 y0 n x y : Nat} {row : Nat → Byte} :
    (∃ r < n, ∃ col < 8, (row r).getLsbD (7 - col) = true ∧
      cellAt policy (x0 + col) (y0 + r) = some (x, y)) ↔
    x < 64 ∧ y < 32 ∧ spriteCovers policy x0 y0 row n x y := by
  constructor
  · rintro ⟨r, hr, col, hcol, hbit, hcell⟩
    obtain ⟨hx, hy⟩ := cellAt_bounds hcell
    refine ⟨hx, hy, r, hr, col, hcol, hbit, ?_⟩
    cases policy with
    | wrap => exact cellAt_wrap_eq_some_iff.mp hcell
    | clip =>
      obtain ⟨hpx, hpy, -⟩ := cellAt_clip_eq_some_iff.mp hcell
      exact ⟨hpx, hpy⟩
  · rintro ⟨hx, hy, r, hr, col, hcol, hbit, hpos⟩
    refine ⟨r, hr, col, hcol, hbit, ?_⟩
    cases policy with
    | wrap => exact cellAt_wrap_eq_some_iff.mpr hpos
    | clip => exact cellAt_clip_eq_some_iff.mpr ⟨hpos.1, hpos.2, hx, hy⟩

/-- A sprite bit of 1 inverts the cell it falls on, if it falls on one. -/
theorem inverts_drawPixel (policy : EdgePolicy) (px py : Nat) (c : Canvas) :
    Inverts (fun x y => cellAt policy px py = some (x, y)) c (drawPixel policy px py c) := by
  unfold drawPixel
  cases hcell : cellAt policy px py with
  | none => exact Inverts.refl_of_empty (by simp)
  | some q =>
    obtain ⟨x', y'⟩ := q
    obtain ⟨hx', hy'⟩ := cellAt_bounds hcell
    constructor
    · rintro x y ⟨⟩
      rw [pixel_togglePixel _ hx' hy', if_pos ⟨rfl, rfl⟩]
    · intro x y hne
      rw [pixel_togglePixel _ hx' hy', if_neg]
      rintro ⟨rfl, rfl⟩
      exact hne rfl
    · simp

/-- The eight columns of a row fall on distinct cells, since 8 ≤ 64. -/
theorem inverts_drawRow (policy : EdgePolicy) (x0 py : Nat) (b : Byte) (c : Canvas) :
    Inverts (fun x y => ∃ col < 8, b.getLsbD (7 - col) = true ∧ cellAt policy (x0 + col) py = some (x, y))
      c (drawRow policy x0 py b c) := by
  refine Inverts.foldl_range (fun col _ c => (inverts_drawPixel policy (x0 + col) py c).ite _) ?_ c
  rintro k hk j hj x y ⟨-, hcell⟩ ⟨-, hcell'⟩
  have := mod_eq_of_cellAt_eq_some hcell hcell'
  omega

/-- The rows of a sprite fall on distinct cells as long as it is no higher than the framebuffer, so the
sprite inverts exactly the cells it covers. -/
theorem inverts_drawSprite (policy : EdgePolicy) (x0 y0 : Nat) (row : Nat → Byte) {n : Nat} (hn : n ≤ 32)
    (c : Canvas) :
    Inverts (fun x y => x < 64 ∧ y < 32 ∧ spriteCovers policy x0 y0 row n x y) c
      (drawSprite policy x0 y0 row n c) := by
  have hrows := Inverts.foldl_range (n := n)
    (fun r _ c => inverts_drawRow policy x0 (y0 + r) (row r) c) ?_ c
  · exact hrows.of_iff fun x y => exists_cellAt_eq_some_iff_spriteCovers
  · rintro k hk j hj x y ⟨_, -, -, hcell⟩ ⟨_, -, -, hcell'⟩
    have := mod_eq_of_cellAt_eq_some hcell hcell'
    omega

/-! ### DRW -/

/-- The cells `DRW Vx, Vy, N` inverts in a state: those inside the framebuffer that the sprite at `I`
covers. -/
def State.drawnCells (policy : EdgePolicy) (x y : Reg) (n : Nibble) (s : State) (px py : Nat) : Prop :=
  px < 64 ∧ py < 32 ∧ spriteCovers policy ((s.getV x).toNat % 64) ((s.getV y).toNat % 32)
    (fun r => Memory.read s.mem ((s.i.toNat + r) % 4096)) n.toNat px py

/-- What DRW does to the state: it inverts the drawn cells, and VF says whether one was 1. -/
theorem exists_inverts_drawAt (policy : EdgePolicy) (x y : Reg) (n : Nibble) (s : State) :
    ∃ c : Canvas, Inverts (s.drawnCells policy x y n) ⟨s.fb, false⟩ c ∧
      drawAt policy x y n s = (((s.setFb c.fb).setFlag c.coll).setRedraw true).advance :=
  ⟨_, inverts_drawSprite policy _ _ _ (by omega) _, rfl⟩

theorem flagByte_eq_one_iff {f : Bool} : flagByte f = 1 ↔ f = true := by
  cases f <;> decide

theorem flagByte_eq_zero_iff {f : Bool} : flagByte f = 0 ↔ f = false := by
  cases f <;> decide

/-- Settles O41, from the cells that the sprite engine inverts and those it collides with. -/
theorem drawInvertsCoveredCellsAndDetectsCollision :
    Obligations.DrawInvertsCoveredCellsAndDetectsCollision := by
  intro x y n s
  refine ⟨decodeWord_encodeWord (.drw x y n), exec_drw s x y n, fun policy => ?_⟩
  obtain ⟨c, hc, hdraw⟩ := exists_inverts_drawAt policy x y n s
  have hVF : (drawAt policy x y n s).getV vF = flagByte c.coll := by simp [hdraw]
  have hcoll : c.coll = true ↔ ∃ px py, s.drawnCells policy x y n px py ∧ pixel s.fb px py = true := by
    simpa using hc.coll
  refine ⟨fun px py hx hy => ⟨fun h => ?_, fun h => ?_⟩, ?_, ?_, fun k hk => ?_, ?_⟩
  · simpa [hdraw] using hc.inverted px py ⟨hx, hy, h⟩
  · simpa [hdraw] using hc.kept px py fun ⟨_, _, h'⟩ => h h'
  · rintro ⟨px, py, hx, hy, hcov, hset⟩
    rw [hVF, flagByte_eq_one_iff, hcoll]
    exact ⟨px, py, ⟨hx, hy, hcov⟩, hset⟩
  · intro hnone
    rw [hVF, flagByte_eq_zero_iff, ← Bool.not_eq_true, hcoll]
    rintro ⟨px, py, ⟨hx, hy, hcov⟩, hset⟩
    exact hnone ⟨px, py, hx, hy, hcov, hset⟩
  · simp [hdraw, hk]
  · rw [State.pcPlus_eq]
    exact drawAt_frame policy x y n s

/-- A draw leaves what a second one reads, the registers but VF, I and memory, so both draw the same cells
(R153). -/
theorem drawnCells_drawAt {x y : Reg} (hx : x ≠ vF) (hy : y ≠ vF) (policy : EdgePolicy) (n : Nibble)
    (s : State) : (drawAt policy x y n s).drawnCells policy x y n = s.drawnCells policy x y n := by
  obtain ⟨c, hdraw⟩ := exists_canvas_drawAt policy x y n s
  funext px py
  simp [State.drawnCells, hdraw, hx, hy]

/-- Settles O42: the second draw inverts the cells of the first again. -/
theorem drawingTwiceRestoresTheFramebuffer : Obligations.DrawingTwiceRestoresTheFramebuffer := by
  intro policy x y n s hx hy
  obtain ⟨c, hc, ht⟩ := exists_inverts_drawAt policy x y n s
  obtain ⟨d, hd, hu⟩ := exists_inverts_drawAt policy x y n (drawAt policy x y n s)
  have hfb : (drawAt policy x y n s).fb = c.fb := by simp [ht]
  rw [drawnCells_drawAt hx hy, hfb] at hd
  have hVF : (drawAt policy x y n (drawAt policy x y n s)).getV vF = flagByte d.coll := by simp [hu]
  refine ⟨?_, ?_, ?_⟩
  · simpa [hu] using hc.fb_eq_of_twice hd
  · rw [hVF, flagByte_eq_one_iff, hc.coll_iff_of_twice hd]
    simp only [State.drawnCells, and_assoc]
  · rw [hVF]
    exact flagByte_eq_zero_or_one d.coll

end Sys2Proof.Machine
end

section
/-! SUPPORT. Keypad and timer instructions (spec/44_keypad_timers.md): which key ends a wait and what a waiting
step does, the skips on a key, and the moves between a register and a timer. -/

namespace Sys2Proof.Machine

/-! ### The key wait -/

/-- The await logic's key vector holds exactly the newly pressed keys (R163). -/
theorem getLsbD_newKeys_eq_true_iff {s : State} {k : Nat} (hk : k < 16) :
    s.newKeys.getLsbD k = true ↔ s.newlyPressed k := by
  simp [State.newKeys, State.newlyPressed, hk]

theorem not_getLsbD_newKeys_eq_true_iff {s : State} {k : Nat} (hk : k < 16) :
    (!s.newKeys.getLsbD k) = true ↔ ¬ s.newlyPressed k := by
  rw [← getLsbD_newKeys_eq_true_iff hk, Bool.not_eq_true', Bool.not_eq_true]

theorem leastKey_newKeys_eq_some_iff {s : State} {k : Nat} :
    leastKey s.newKeys = some k ↔ k < 16 ∧ s.newlyPressed k ∧ ∀ j < k, ¬ s.newlyPressed j := by
  rw [leastKey, List.find?_range_eq_some, List.mem_range, and_left_comm]
  refine and_congr_right fun hk => and_congr (getLsbD_newKeys_eq_true_iff hk) ?_
  exact forall₂_congr fun _ hj => not_getLsbD_newKeys_eq_true_iff (hj.trans hk)

theorem leastKey_newKeys_eq_none_iff {s : State} :
    leastKey s.newKeys = none ↔ ∀ k < 16, ¬ s.newlyPressed k := by
  rw [leastKey, List.find?_range_eq_none]
  exact forall₂_congr fun _ hk => not_getLsbD_newKeys_eq_true_iff hk

/-- A waiting step that finds a new key completes the pending instruction (R163). -/
theorem step_of_leastKey_eq_some {s : State} {r : Reg} {k : Nat} (hw : s.wait = some r)
    (hk : leastKey s.newKeys = some k) :
    step s = .next
      { s.setV r (BitVec.ofNat 8 k) with wait := none, waitKeys := 0, pc := s.pcPlus 2 } := by
  rw [step_of_waiting hw, awaitKey, hk]
  exact congrArg _ (State.advance_eq _)

/-- A waiting step that finds no new key forgets the keys that are up (R163). -/
theorem step_of_leastKey_eq_none {s : State} {r : Reg} (hw : s.wait = some r)
    (hnone : leastKey s.newKeys = none) :
    step s = .next { s with waitKeys := s.waitKeys &&& s.key } := by
  rw [step_of_waiting hw, awaitKey, hnone, ← hw]
  rfl

/-- Settles O45: the await logic's key is the least newly pressed one, and the snapshot kept is its
intersection with KEY. -/
theorem keyWaitCompletesWithTheLeastNewKey : Obligations.KeyWaitCompletesWithTheLeastNewKey := by
  intro s r hw
  refine ⟨fun k hk hnew hleast => ?_, fun hnone => ?_⟩
  · exact step_of_leastKey_eq_some hw (leastKey_newKeys_eq_some_iff.mpr ⟨hk, hnew, hleast⟩)
  · exact ⟨_, step_of_leastKey_eq_none hw (leastKey_newKeys_eq_none_iff.mpr hnone), rfl,
      fun _ _ => BitVec.getLsbD_and⟩

/-- Settles O44: entering the wait is one update of WAIT and WAIT_KEYS. -/
theorem keyWaitBeginsWithASnapshot : Obligations.KeyWaitBeginsWithASnapshot := by
  intro x s
  exact ⟨decodeWord_encodeWord (.ldVxK x), exec_ldVxK s x⟩

/-! ### Skips on a key -/

/-- The key tested is numbered by the low nibble of the byte (R160, R161). -/
theorem keyDown_lowNibble (s : State) (b : Byte) :
    s.keyDown (lowNibble b) = s.key.getLsbD (b.toNat % 16) := by
  rw [State.keyDown, lowNibble_eq]

/-- Settles O43: both skips are conditional on the same bit of KEY, SKNP on its negation. -/
theorem keySkipsTestTheLowNibbleKey : Obligations.KeySkipsTestTheLowNibbleKey := by
  intro x s
  refine ⟨decodeWord_encodeWord (.skp x), decodeWord_encodeWord (.sknp x), ?_, ?_⟩
  · rw [exec_skp, State.skipIf_eq_pcPlus, keyDown_lowNibble]
  · simp only [exec_sknp, State.skipIf_eq_pcPlus, keyDown_lowNibble, Bool.not_eq_true']

/-! ### Timers -/

/-- Settles O47: each writes its destination and then advances PC. -/
theorem timerMoves : Obligations.TimerMoves := by
  intro x s
  refine ⟨decodeWord_encodeWord (.ldVxDt x), decodeWord_encodeWord (.ldDtVx x),
    decodeWord_encodeWord (.ldStVx x), ?_, ?_, ?_⟩
  · rw [exec_ldVxDt, advance_setV]
  · rw [exec_ldDtVx, State.advance_eq]
    rfl
  · rw [exec_ldStVx, State.advance_eq]
    rfl

end Sys2Proof.Machine
end

section
/-! SUPPORT. Errors (spec/60_exceptions.md R170, R171): what settling an outcome answers and leaves, exactly when
each transaction raises an error, and that none is refused. -/

namespace Sys2Proof.Machine

/-! ### Settling an outcome -/

section Settle

variable {s t : State} {o : Host.Outcome State Fault Refusal}

theorem settle_snd_eq_error_iff {f : Fault} : (settle s o).2 = .error f ↔ o = .fault f := by
  cases o <;> simp [settle]

theorem settle_snd_eq_refused_iff {r : Refusal} : (settle s o).2 = .refused r ↔ o = .refused r := by
  cases o <;> simp [settle]

theorem eq_of_settle_eq_error {f : Fault} (h : settle s o = (t, .error f)) : t = s := by
  cases o <;> cases h
  rfl

end Settle

/-- A transaction that raises an error leaves the state it found (R171). -/
theorem eq_of_transact_eq_error {tx : Transaction} {s t : State} {f : Fault}
    (h : transact tx s = (t, .error f)) : t = s := by
  cases tx with
  | load | step | setKey => exact eq_of_settle_eq_error h
  | reset | tickTimers | framebuffer | consumeRedrawFlag => cases h

/-- Settles O17: the state after the error is the state before it, so the transaction meets the same
state again. -/
theorem errorsChangeNoStateAndRepeat : Obligations.ErrorsChangeNoStateAndRepeat := by
  intro tx s t f h
  obtain rfl := eq_of_transact_eq_error h
  exact ⟨rfl, h⟩

/-! ### The outcome of each transaction that can raise an error -/

section Outcomes

variable {bytes : List Byte} {index : Nat} {pressed : Bool} {s t : State} {f : Fault}

theorem load_of_le (h : bytes.length ≤ 3584) :
    load bytes s = .next ((storeBytes bytes loadAddr s).setPc 0x0200) := if_pos h

theorem load_of_gt (h : bytes.length > 3584) :
    load bytes s = .fault (.loadTooLarge bytes.length) := if_neg (Nat.not_le.mpr h)

theorem setKey_of_lt (h : index < 16) :
    setKey index pressed s = .next (s.setKeys (setKeyBit s.key index pressed)) := if_pos h

theorem setKey_of_gt (h : index > 15) :
    setKey index pressed s = .fault (.invalidKeyIndex index) := if_neg (Nat.not_lt.mpr h)

/-- A load writes MEM and PC alone (R203, R204). -/
theorem transact_load_frame (bytes : List Byte) (s : State) :
    (transact (.load bytes) s).1 = { s with
      mem := (transact (.load bytes) s).1.mem, pc := (transact (.load bytes) s).1.pc } := by
  rcases Nat.lt_or_ge 3584 bytes.length with hlen | hlen
  · rw [transact, load_of_gt hlen, settle]
  · rw [transact, load_of_le hlen, settle, storeBytes_frame]
    rfl

/-- A set_key writes KEY alone (R184, R185). -/
theorem transact_setKey_frame (index : Nat) (pressed : Bool) (s : State) :
    (transact (.setKey index pressed) s).1 =
      { s with key := (transact (.setKey index pressed) s).1.key } := by
  rcases Nat.lt_or_ge 15 index with hidx | hidx
  · rw [transact, setKey_of_gt hidx, settle]
  · rw [transact, setKey_of_lt (Nat.lt_succ_of_le hidx), settle]
    rfl

theorem load_eq_fault_iff :
    load bytes s = .fault f ↔ bytes.length > 3584 ∧ f = .loadTooLarge bytes.length := by
  rcases Nat.lt_or_ge 3584 bytes.length with hlen | hlen
  · simp [load_of_gt hlen, hlen, eq_comm]
  · simp [load_of_le hlen, Nat.not_lt.mpr hlen]

theorem setKey_eq_fault_iff :
    setKey index pressed s = .fault f ↔ index > 15 ∧ f = .invalidKeyIndex index := by
  rcases Nat.lt_or_ge 15 index with hidx | hidx
  · simp [setKey_of_gt hidx, hidx, eq_comm]
  · simp [setKey_of_lt (Nat.lt_succ_of_le hidx), Nat.not_lt.mpr hidx]

theorem load_ne_refused (r : Refusal) : load bytes s ≠ .refused r := by
  unfold load
  split <;> nofun

theorem setKey_ne_refused (r : Refusal) : setKey index pressed s ≠ .refused r := by
  unfold setKey
  split <;> nofun

theorem callTo_eq_fault_iff {target : Word} :
    callTo target s = .fault f ↔ s.sp.val = 16 ∧ f = .stackOverflow s.pc := by
  rcases Nat.lt_or_ge s.sp.val 16 with hsp | hsp
  · simp [callTo_of_lt target hsp, Nat.ne_of_lt hsp]
  · have hfull : s.sp.val = 16 := by omega
    simp [callTo_of_full target hfull, hfull, eq_comm]

theorem returnToCaller_eq_fault_iff :
    returnToCaller s = .fault f ↔ s.sp.val = 0 ∧ f = .stackUnderflow s.pc := by
  by_cases hsp : s.sp.val = 0
  · simp [returnToCaller_of_empty hsp, hsp, eq_comm]
  · simp [returnToCaller_of_ne hsp, hsp]

/-- Only CALL and RET can raise an error (R174, R175). -/
theorem exec_eq_fault_iff {i : Instr} :
    exec i s = .fault f ↔
      ((∃ nnn, i = .call nnn) ∧ s.sp.val = 16 ∧ f = .stackOverflow s.pc) ∨
      (i = .ret ∧ s.sp.val = 0 ∧ f = .stackUnderflow s.pc) := by
  cases i with
  | call nnn => simp [callTo_eq_fault_iff]
  | ret => simp [returnToCaller_eq_fault_iff]
  | _ => simp

/-- Every instruction has a meaning. -/
theorem exec_ne_refused (i : Instr) (s : State) (r : Refusal) : exec i s ≠ .refused r := by
  cases i with
  | call nnn =>
    rw [exec_call, callTo]
    split <;> nofun
  | ret =>
    rw [exec_ret, returnToCaller]
    split <;> nofun
  | _ => nofun

/-- A step raises an error only where no wait is pending: at an illegal word, or in CALL or RET. -/
theorem step_eq_fault_iff :
    step s = .fault f ↔ s.wait = none ∧
      (((∃ e, decodeWord s.fetch = .error e) ∧ f = .decodeError s.fetch s.pc) ∨
       ((∃ nnn, decodeWord s.fetch = .ok (.call nnn)) ∧ s.sp.val = 16 ∧ f = .stackOverflow s.pc) ∨
       (decodeWord s.fetch = .ok .ret ∧ s.sp.val = 0 ∧ f = .stackUnderflow s.pc)) := by
  obtain ⟨r, hw, hs⟩ | ⟨i, hw, hd, hs⟩ | ⟨e, hw, hd, hs⟩ := step_cases s
  · simp [hs, hw]
  · simp [hs, hw, hd, exec_eq_fault_iff]
  · simp [hs, hw, hd, eq_comm]

theorem step_ne_refused (r : Refusal) : step s ≠ .refused r := by
  obtain ⟨_, -, hs⟩ | ⟨i, -, -, hs⟩ | ⟨_, -, -, hs⟩ := step_cases s <;> rw [hs]
  · nofun
  · exact exec_ne_refused i s r
  · nofun

end Outcomes

/-- No transaction of the model is refused. -/
theorem transact_ne_refused (tx : Transaction) (s : State) (r : Refusal) :
    (transact tx s).2 ≠ .refused r := by
  cases tx with
  | load => exact settle_snd_eq_refused_iff.not.mpr (load_ne_refused r)
  | step => exact settle_snd_eq_refused_iff.not.mpr (step_ne_refused r)
  | setKey => exact settle_snd_eq_refused_iff.not.mpr (setKey_ne_refused r)
  | reset | tickTimers | framebuffer | consumeRedrawFlag => nofun

/-- Settles O18: only load, step and set_key answer an outcome, and each has its own rows of the table. -/
theorem errorsAreExactlyTheTaxonomy : Obligations.ErrorsAreExactlyTheTaxonomy := by
  refine ⟨fun tx s f => ?_, transact_ne_refused, fun _ _ _ _ => ⟨rfl, rfl, rfl, rfl, rfl⟩, rfl, fun _ => rfl⟩
  cases tx with
  | load bytes => simp [transact, settle_snd_eq_error_iff, load_eq_fault_iff]
  | setKey index pressed => simp [transact, settle_snd_eq_error_iff, setKey_eq_fault_iff]
  | step => simp [transact, settle_snd_eq_error_iff, step_eq_fault_iff, and_or_left]
  | reset | tickTimers | framebuffer | consumeRedrawFlag => simp [transact]

end Sys2Proof.Machine
end

section
/-! SUPPORT. The host's transactions (spec/60_exceptions.md R180 to R191): the tick, set_key, the framebuffer and
REDRAW, what the host cannot touch, and that only a key or a reset ends a key wait. -/

namespace Sys2Proof.Machine

/-! ### Timers -/

theorem countDown_eq_ofNat (b : Byte) : countDown b = BitVec.ofNat 8 (b.toNat - 1) := by
  unfold countDown
  split <;> bv_omega

theorem beep_eq_decide (s : State) : beep s = decide (s.st.toNat = 1) :=
  decide_eq_decide.mpr BitVec.toNat_inj.symm

/-- Settles O48: each timer by its countdown, everything else by the two updates. -/
theorem tickCountsBothTimersDown : Obligations.TickCountsBothTimersDown := by
  intro s
  rw [transact, tickTimers, countDown_eq_ofNat, countDown_eq_ofNat, beep_eq_decide]
  rfl

theorem runAll_replicate_tickTimers (m : Nat) (s : State) :
    (runAll (List.replicate m .tickTimers) s).dt.toNat = s.dt.toNat - m ∧
    (runAll (List.replicate m .tickTimers) s).st.toNat = s.st.toNat - m := by
  induction m generalizing s with
  | zero => exact ⟨rfl, rfl⟩
  | succ m ih =>
    obtain ⟨hdt, hst⟩ := ih (transact .tickTimers s).1
    rw [tickCountsBothTimersDown] at hdt hst
    rw [List.replicate_succ, runAll, tickCountsBothTimersDown, hdt, hst]
    simp only [BitVec.toNat_ofNat]
    omega

/-- Settles O49: after m ticks ST is down by m, so it is 1 exactly when it was m + 1. -/
theorem countdownBeepsOnceOnItsLastTick : Obligations.CountdownBeepsOnceOnItsLastTick := by
  intro s m
  obtain ⟨hdt, hst⟩ := runAll_replicate_tickTimers m s
  refine ⟨?_, hdt, hst⟩
  have hone : s.st.toNat - m = 1 ↔ s.st.toNat = m + 1 := by omega
  rw [tickCountsBothTimersDown, hst, decide_eq_decide.mpr hone]

/-! ### Keys -/

theorem getLsbD_setKeyBit (keys : BitVec 16) (index : Nat) (pressed : Bool) {k : Nat} (hk : k < 16) :
    (setKeyBit keys index pressed).getLsbD k = if k = index then pressed else keys.getLsbD k := by
  have hbit : (1#16 <<< index).getLsbD k = decide (k = index) := by
    rw [← BitVec.twoPow_eq, BitVec.getLsbD_twoPow]
    by_cases h : k = index
    · subst h
      simp [hk]
    · simp [h, Ne.symm h]
  rw [setKeyBit]
  cases pressed with
  | false =>
    rw [if_neg Bool.false_ne_true, BitVec.getLsbD_and, BitVec.getLsbD_not, hbit]
    by_cases h : k = index <;> simp [h, hk]
  | true =>
    rw [if_pos rfl, BitVec.getLsbD_or, hbit]
    by_cases h : k = index <;> simp [h]

theorem setKeyBit_setKeyBit (keys : BitVec 16) (index : Nat) (pressed : Bool) :
    setKeyBit (setKeyBit keys index pressed) index pressed = setKeyBit keys index pressed := by
  refine BitVec.eq_of_getLsbD_eq fun k hk => ?_
  simp only [getLsbD_setKeyBit _ _ _ hk]
  split <;> rfl

/-- Settles O50: the key vector by its bits, the repetition because the bit has its level already. -/
theorem setKeySetsOneLevel : Obligations.SetKeySetsOneLevel := by
  intro index pressed s
  refine ⟨fun hidx => ⟨s.setKeys (setKeyBit s.key index pressed), ?_,
    fun k hk => getLsbD_setKeyBit s.key index pressed hk, rfl, ?_⟩, fun hidx => ?_⟩
  · rw [transact, setKey_of_lt hidx, settle]
  · rw [transact, setKey_of_lt hidx, settle, State.setKeys_key, setKeyBit_setKeyBit]
    rfl
  · rw [transact, setKey_of_gt hidx, settle]

/-! ### Framebuffer -/

/-- Settles O51: element `y*64 + x` has the column and the row that dividing by 64 gives. -/
theorem framebufferReturnsEveryCell : Obligations.FramebufferReturnsEveryCell := by
  intro s
  refine ⟨framebufferView s, rfl, by simp [framebufferView], fun x y hx hy => ?_⟩
  have hcol : (y * 64 + x) % 64 = x := by omega
  have hrow : (y * 64 + x) / 64 = y := by omega
  have hlt : y * 64 + x < 2048 := by omega
  simp [framebufferView, hcol, hrow, hlt]

/-! ### REDRAW -/

/-- A step changes REDRAW only to 1, and only by CLS or DRW. -/
theorem step_redraw {s t : State} (h : step s = .next t) (hne : t.redraw ≠ s.redraw) :
    t.redraw = true ∧ s.wait = none ∧
      (decodeWord s.fetch = .ok .cls ∨ ∃ x y n, decodeWord s.fetch = .ok (.drw x y n)) := by
  obtain ⟨r, -, hs⟩ | ⟨i, hw, hd, hs⟩ | ⟨e, -, -, hs⟩ := step_cases s <;> rw [hs] at h
  · cases h
    obtain ⟨k, -, heq⟩ | ⟨-, heq⟩ := awaitKey_cases r s <;> rw [heq] at hne <;> exact absurd rfl hne
  · obtain ⟨-, -, -, -, -, -, -, -, hredraw, -⟩ := eachElementHasItsOnlyWriters i s t h
    obtain ⟨ht, rfl | ⟨x, y, n, rfl⟩⟩ := hredraw hne
    · exact ⟨ht, hw, .inl hd⟩
    · exact ⟨ht, hw, .inr ⟨x, y, n, hd⟩⟩
  · cases h

/-- The transactions that change REDRAW: reset and consume_redraw_flag, which clear it, and a step that
executes CLS or DRW, which sets it. -/
theorem transact_redraw {tx : Transaction} {s : State} (hne : (transact tx s).1.redraw ≠ s.redraw) :
    ((tx = .reset ∨ tx = .consumeRedrawFlag) ∧ (transact tx s).1.redraw = false) ∨
    (tx = .step ∧ (transact tx s).1.redraw = true ∧ s.wait = none ∧
      (decodeWord s.fetch = .ok .cls ∨ ∃ x y n, decodeWord s.fetch = .ok (.drw x y n))) := by
  cases tx with
  | reset => exact .inl ⟨.inl rfl, rfl⟩
  | consumeRedrawFlag => exact .inl ⟨.inr rfl, rfl⟩
  | step =>
    cases hs : step s with
    | next t =>
      rw [transact, hs] at hne ⊢
      exact .inr ⟨rfl, step_redraw hs hne⟩
    | fault | refused =>
      rw [transact, hs] at hne
      exact absurd rfl hne
  | load bytes => exact absurd (congrArg State.redraw (transact_load_frame bytes s)) hne
  | setKey index pressed => exact absurd (congrArg State.redraw (transact_setKey_frame index pressed s)) hne
  | tickTimers | framebuffer => exact absurd rfl hne

/-- Settles O52, from the transactions that change REDRAW. -/
theorem consumeReadsAndClearsRedraw : Obligations.ConsumeReadsAndClearsRedraw := by
  refine ⟨fun s => rfl, fun tx s hs ht => ?_, fun tx s hs ht => ?_⟩
  · obtain ⟨htx, -⟩ | ⟨-, hset, -⟩ := transact_redraw (tx := tx) (s := s) (by simp [hs, ht])
    · exact htx
    · exact absurd hset (by simp [ht])
  · obtain ⟨-, hclear⟩ | ⟨htx, -, hrun⟩ := transact_redraw (tx := tx) (s := s) (by simp [hs, ht])
    · exact absurd hclear (by simp [ht])
    · exact ⟨htx, hrun⟩

/-! ### What the host cannot touch -/

/-- Settles O54: each transaction writes the elements its own law names. -/
theorem hostTransactionsKeepTheProgramsState : Obligations.HostTransactionsKeepTheProgramsState := by
  intro tx s hstep hreset
  cases tx with
  | step => exact absurd rfl hstep
  | reset => exact absurd rfl hreset
  | load bytes =>
    exact ⟨⟨_, _, _, _, _, _, transact_load_frame bytes s⟩, fun hload => absurd rfl (hload bytes)⟩
  | setKey index pressed =>
    rw [transact_setKey_frame]
    exact ⟨⟨_, _, _, _, _, _, rfl⟩, fun _ => ⟨rfl, rfl⟩⟩
  | tickTimers | framebuffer | consumeRedrawFlag => exact ⟨⟨_, _, _, _, _, _, rfl⟩, fun _ => ⟨rfl, rfl⟩⟩

/-! ### What ends a key wait -/

/-- A wait for register r is pending, and no key is newly pressed that would end it (R163). -/
def State.waitsWithoutKey (s : State) (r : Reg) : Prop :=
  s.wait = some r ∧ ∀ k < 16, ¬ s.newlyPressed k

/-- A waiting step that forgets the keys that are up makes no key new. -/
theorem State.newlyPressed_of_waitKeys_and_key {s : State} {k : Nat}
    (h : ({ s with waitKeys := s.waitKeys &&& s.key } : State).newlyPressed k) : s.newlyPressed k := by
  obtain ⟨hkey, hand⟩ := h
  exact ⟨hkey, by simpa [show s.key.getLsbD k = true from hkey] using hand⟩

/-- Only reset and set_key can end such a wait, or write a register during it. -/
theorem transact_waitsWithoutKey {tx : Transaction} {s : State} {r : Reg} (hs : s.waitsWithoutKey r)
    (hreset : tx ≠ .reset) (hkey : ∀ index pressed, tx ≠ .setKey index pressed) :
    (transact tx s).1.waitsWithoutKey r ∧ (transact tx s).1.v = s.v := by
  obtain ⟨hw, hnone⟩ := hs
  cases tx with
  | reset => exact absurd rfl hreset
  | setKey index pressed => exact absurd rfl (hkey index pressed)
  | step =>
    rw [transact, step_of_leastKey_eq_none hw (leastKey_newKeys_eq_none_iff.mpr hnone)]
    exact ⟨⟨hw, fun k hk h => hnone k hk (State.newlyPressed_of_waitKeys_and_key h)⟩, rfl⟩
  | load bytes =>
    rw [transact_load_frame]
    exact ⟨⟨hw, hnone⟩, rfl⟩
  | tickTimers | framebuffer | consumeRedrawFlag => exact ⟨⟨hw, hnone⟩, rfl⟩

/-- Settles O46, by induction over the transactions. -/
theorem onlyAKeyOrResetEndsTheWait : Obligations.OnlyAKeyOrResetEndsTheWait := by
  intro txs s r hw hnone htxs
  induction txs generalizing s with
  | nil => exact ⟨hw, fun _ => rfl⟩
  | cons tx rest ih =>
    obtain ⟨⟨hreset, hkey⟩, hrest⟩ := List.forall_mem_cons.mp htxs
    obtain ⟨⟨hw', hnone'⟩, hv⟩ := transact_waitsWithoutKey ⟨hw, hnone⟩ hreset hkey
    obtain ⟨hwait, hregs⟩ := ih _ hw' hnone' hrest
    refine ⟨hwait, fun x => (hregs x).trans ?_⟩
    rw [State.getV, State.getV, hv]

end Sys2Proof.Machine
end

section
/-! SUPPORT. Reset and load (spec/70_reset_and_hazards.md R200 to R205, R212): what a load leaves in memory and
of a key wait; and the resting conditions of R220 that a step cannot leave: an idle loop and a fault. -/

namespace Sys2Proof.Machine

/-! ### Reset -/

/-- Settles O2: the next state depends on the one before by the draw counter alone, which it keeps. -/
theorem resetTransactionFromAnyState : Obligations.ResetTransactionFromAnyState :=
  fun _ => ⟨rfl, rfl⟩

/-! ### Memory after a load -/

theorem memRead_storeBytes_of_forall_ne {bs : List Byte} {a b : Nat} {s : State}
    (h : ∀ k < bs.length, b % 4096 ≠ (a + k) % 4096) : (storeBytes bs a s).memRead b = s.memRead b := by
  induction bs generalizing a s with
  | nil => rfl
  | cons v rest ih =>
    have hrest : ∀ k < rest.length, b % 4096 ≠ (a + 1 + k) % 4096 := fun k hk => by
      have hne := h (k + 1) (Nat.succ_lt_succ hk)
      omega
    have hfirst : b % 4096 ≠ a % 4096 := h 0 (Nat.succ_pos _)
    rw [storeBytes, ih hrest, State.memRead_memWrite_of_ne _ hfirst]

/-- A stored byte is found at its place. A later store does not reach it: at most 4096 successive addresses
differ modulo 4096. -/
theorem memRead_storeBytes_add {bs : List Byte} (hlen : bs.length ≤ 4096) (a : Nat) (s : State) {k : Nat}
    (hk : k < bs.length) : (storeBytes bs a s).memRead (a + k) = bs[k] := by
  induction bs generalizing a s k with
  | nil => cases hk
  | cons v rest ih =>
    rw [List.length_cons] at hlen
    rw [storeBytes]
    cases k with
    | zero =>
      rw [memRead_storeBytes_of_forall_ne fun j hj => by omega]
      exact State.memRead_memWrite_self ..
    | succ k =>
      have hplace : a + (k + 1) = a + 1 + k := by omega
      rw [hplace]
      exact ih (Nat.le_of_succ_le hlen) (a + 1) _ (Nat.lt_of_succ_lt_succ hk)

/-! ### Load -/

/-- A load of a program that fits (R203). -/
theorem transact_load_of_le {bytes : List Byte} (h : bytes.length ≤ 3584) (s : State) :
    transact (.load bytes) s = ((storeBytes bytes loadAddr s).setPc 0x0200, .ok) := by
  rw [transact, load_of_le h, settle]

/-- Settles O4: the load is an error, which leaves the state it found. -/
theorem loadRejectsTooLargeProgram : Obligations.LoadRejectsTooLargeProgram := by
  intro bytes s hlen
  rw [transact, load_of_gt hlen, settle]

/-- Settles O3: the program ends at 0x0FFF at the latest, so no store wraps round to the addresses below
0x200. -/
theorem loadWritesProgramAndPcOnly : Obligations.LoadWritesProgramAndPcOnly := by
  intro bytes s hlen
  refine ⟨_, transact_load_of_le hlen s, fun k hk => ?_, fun a ha hout => ?_, ?_⟩
  · exact memRead_storeBytes_add (by omega) loadAddr s hk
  · have hne : ∀ k < bytes.length, a % 4096 ≠ (0x200 + k) % 4096 := by omega
    exact memRead_storeBytes_of_forall_ne hne
  · rw [storeBytes_frame]
    rfl

/-- A load does not touch the keys (R205), so the key that ends a wait is the one it was before. -/
theorem newKeys_setPc_storeBytes (bytes : List Byte) (a : Nat) (w : Word) (s : State) :
    ((storeBytes bytes a s).setPc w).newKeys = s.newKeys := by
  simp [State.newKeys]

/-- Settles O5: the load keeps the wait and the keys, and completing the wait advances PC from 0x0200. -/
theorem loadDuringKeyWaitSkipsFirstInstruction :
    Obligations.LoadDuringKeyWaitSkipsFirstInstruction := by
  intro bytes s r hlen hw
  have hwait : ((storeBytes bytes loadAddr s).setPc 0x0200).wait = some r := by simp [hw]
  refine ⟨_, transact_load_of_le hlen s, hwait, rfl, fun k hk hnew hleast => ⟨_, ?_, rfl⟩⟩
  have hkey := leastKey_newKeys_eq_some_iff.mpr ⟨hk, hnew, hleast⟩
  rw [← newKeys_setPc_storeBytes bytes loadAddr 0x0200] at hkey
  exact step_of_leastKey_eq_some hwait hkey

/-! ### The idle loop -/

/-- The fetch does not see bits 15-12 of PC (R27, R40). -/
theorem fetch_setPc_of_sameLow12 {s : State} {w : Word} (h : sameLow12 w s.pc) :
    (s.setPc w).fetch = s.fetch :=
  congrArg₂ wordOfBytes (s.memRead_congr_mod h) (s.memRead_congr_mod (Nat.ModEq.add_right 1 h))

/-- A jump that stands where it jumps to, up to bits 15-12 of PC, is executed again by the next step. -/
theorem step_setPc_of_idleLoop {s : State} {nnn : Addr} (hw : s.wait = none)
    (hd : decodeWord s.fetch = .ok (.jp nnn)) {w : Word} (h : sameLow12 w s.pc) :
    step (s.setPc w) = .next (s.setPc (zextAddr nnn)) := by
  have hwait : (s.setPc w).wait = none := hw
  rw [← fetch_setPc_of_sameLow12 h] at hd
  exact step_of_legal hwait hd

/-- Settles O59: the jump's target has the low 12 bits of PC, and bits 15-12 zero. -/
theorem idleLoopStays : Obligations.IdleLoopStays := by
  rintro s ⟨hw, nnn, hd, hea⟩
  have hstep : step s = .next (s.setPc (zextAddr nnn)) := step_of_legal hw hd
  refine ⟨fun hpc => ?_, _, hstep, rfl, hea, step_setPc_of_idleLoop hw hd hea⟩
  have hself : zextAddr nnn = s.pc := by
    have hlt : (zextAddr nnn).toNat < 4096 := by
      rw [zextAddr_eq, BitVec.toNat_ofNat]
      omega
    apply BitVec.eq_of_toNat_eq
    rwa [effAddr, effAddr, Nat.mod_eq_of_lt hlt, Nat.mod_eq_of_lt hpc] at hea
  rw [hstep, hself]
  rfl

/-! ### The fault -/

/-- A fault does not depend on the timers. -/
theorem step_tickTimers_of_fault {s : State} {f : Fault} (h : step s = .fault f) :
    step (tickTimers s) = .fault f := by
  have hcause := step_eq_fault_iff.mp h
  exact step_eq_fault_iff.mpr hcause

/-- A step at a fault leaves the state (R171), and a tick writes the timers alone (R183). -/
theorem transact_step_or_tick_of_fault {s : State} {f : Fault} {tx : Transaction} (h : step s = .fault f)
    (htx : tx = .step ∨ tx = .tickTimers) :
    step (transact tx s).1 = .fault f ∧ (transact tx s).1.pc = s.pc := by
  obtain rfl | rfl := htx
  · rw [transact, h, settle]
    exact ⟨h, rfl⟩
  · exact ⟨step_tickTimers_of_fault h, rfl⟩

/-- Settles O60, by induction over the transactions. -/
theorem faultStaysThroughStepsAndTicks : Obligations.FaultStaysThroughStepsAndTicks := by
  rintro txs s f - hfault htxs
  induction txs generalizing s with
  | nil => exact ⟨hfault, rfl⟩
  | cons tx rest ih =>
    obtain ⟨htx, hrest⟩ := List.forall_mem_cons.mp htxs
    obtain ⟨hfault', hpc⟩ := transact_step_or_tick_of_fault hfault htx
    obtain ⟨hstep, hpcs⟩ := ih _ hfault' hrest
    exact ⟨hstep, hpcs.trans hpc⟩

end Sys2Proof.Machine
end
